-- ==== Sys2Proof/Word.lean ====
section
/-! DEFINITION. The word types of the block's channels and stores (spec/00_scope.md R6, R7). -/

namespace Sys2Proof

/-- A byte or a character code: `bits(8)` (R6 `CHAR_W`, `BYTE_W`; R7). -/
abbrev Byte := BitVec 8

/-- A `sym_in` word, format SYM9 (R61). -/
abbrev Sym9 := BitVec 9

/-- A `tru_req` word, format TREQ164 (R70). -/
abbrev TReq164 := BitVec 164

/-- The 20 digest bytes as the 160-bit field of a request, `digest[0]` most significant (R44, R70). -/
abbrev Digest := BitVec 160

/-- An error code, `bits(3)` (R6 `ERR_W`, R170). -/
abbrev ErrCode := BitVec 3

end Sys2Proof
end

