-- ==== Sys2Proof/Config.lean ====
section
/-! DEFINITION. What an instance of the block fixes when it is built (spec/00_scope.md R6, R10), and the
uninterpreted primitive its host owns. -/

namespace Sys2Proof

/-- The two build-time parameters of the block (R6). The LUT is fixed by R63 once `wsSet` is given. -/
structure Config where
  /-- `WS_SET`: the character codes treated as whitespace (R65, D6). -/
  wsSet : List Byte
  /-- `SECRET_MAX`: the capacity of the secret buffer in bytes; `none` is `unbounded` (R57, D10). -/
  secretMax : Option Nat
  deriving DecidableEq, Repr

/-- The spec's default parameters: the six whitespace codes of R65 and an unbounded secret buffer (R6). -/
def Config.default : Config where
  wsSet := [0x09, 0x0A, 0x0B, 0x0C, 0x0D, 0x20]
  secretMax := none

/-- `HMAC_SHA1`, the host's keyed hash: any function from key bytes and message bytes to 20 bytes (R143, D24).
It has no body, so nothing can be proved of it but that it is a function (log entry 5). -/
opaque Config.hmacSha1 : List Byte → List Byte → Digest

end Sys2Proof
end

