-- ==== Sys2Proof/Syntax.lean ====
section
/-! DEFINITION. The channels, the words on them, the classes of a character and the nine instructions
(spec/30_encoding.md R60 to R74, spec/opcode_table.json). -/

namespace Sys2Proof

/-- The channels a host moves on, `rst` apart (R60). For a result channel the move is the host's `ready`. -/
inductive Channel where
  | symIn
  | b32Res
  | truReq
  | truRes
  deriving DecidableEq, Repr

/-- One word on one input of the block (R60): a `sym_in` or `tru_req` word, or a one-bit signal (R74). -/
inductive BeatWord where
  | symIn (w : Sym9)
  | b32Ready (v : BitVec 1)
  | truReq (q : TReq164)
  | truReady (v : BitVec 1)
  | rst (v : BitVec 1)
  deriving DecidableEq, Repr

/-- `Class` of R8: what the LUT makes of a character code. -/
inductive CharClass where
  | alpha (idx : BitVec 5)
  | ws
  | pad
  | invalid
  deriving DecidableEq, Repr

/-- The instructions of the block: one constructor per mnemonic of the opcode table, with the operands the
spec gives it. The table's 256 character rows are the encodings of the first four (R64 to R67). -/
inductive Instr where
  /-- SYM.ALPHA (R92): an alphabet character, `idx` its index. -/
  | symAlpha (idx : BitVec 5)
  /-- SYM.WS (R93). -/
  | symWs
  /-- SYM.PAD (R94). -/
  | symPad
  /-- SYM.INVALID (R95). -/
  | symInvalid
  /-- END (R96). -/
  | endOfString
  /-- B32.TAKE (R97). -/
  | b32Take
  /-- TRU.REQ (R121). -/
  | truReq (digits : BitVec 4) (digest : Digest)
  /-- TRU.TAKE (R128). -/
  | truTake
  /-- RESET (R190). -/
  | reset
  deriving DecidableEq, Repr

end Sys2Proof
end

