-- ==== Sys2Proof/Decode.lean ====
section
/-! DEFINITION. The LUT, the decoder of every channel's word, and the encoder (spec/30_encoding.md). -/

namespace Sys2Proof

/-- `ALPHABET`: the codes of `ABCDEFGHIJKLMNOPQRSTUVWXYZ234567` in index order (R6, R64). -/
def alphabet : List Byte :=
  [0x41, 0x42, 0x43, 0x44, 0x45, 0x46, 0x47, 0x48, 0x49, 0x4A, 0x4B, 0x4C, 0x4D, 0x4E, 0x4F, 0x50,
   0x51, 0x52, 0x53, 0x54, 0x55, 0x56, 0x57, 0x58, 0x59, 0x5A, 0x32, 0x33, 0x34, 0x35, 0x36, 0x37]

/-- `PAD_CHAR`, the code of `=` (R6, R66). -/
def padChar : Byte := 0x3D

/-- `fold` (R8): the 26 lower-case codes move to upper case, every other code stays. -/
def fold (c : Byte) : Byte :=
  if 0x61 ≤ c ∧ c ≤ 0x7A then c - 0x20 else c

/-- The part of the LUT that is neither whitespace nor padding, on a folded code (R63). -/
def alphaClass (u : Byte) : CharClass :=
  if 0x41 ≤ u ∧ u ≤ 0x5A then .alpha ((u - 0x41).setWidth 5)
  else if 0x32 ≤ u ∧ u ≤ 0x37 then .alpha ((u - 0x32 + 26).setWidth 5)
  else .invalid

/-- `lut` (R63); `ws` is `WS_SET` and is tested first. -/
def lut (ws : List Byte) (c : Byte) : CharClass :=
  if c ∈ ws then .ws
  else if c = padChar then .pad
  else alphaClass (fold c)

/-- The instruction a class selects (R62). -/
def instrOfClass : CharClass → Instr
  | .alpha idx => .symAlpha idx
  | .ws => .symWs
  | .pad => .symPad
  | .invalid => .symInvalid

/-- `w[8]` of a `sym_in` word, the `end` field (R61). -/
def symEnd (w : Sym9) : Bool := w.getLsbD 8

/-- `w[7:0]` of a `sym_in` word, the `char` field (R61). -/
def symChar (w : Sym9) : Byte := w.extractLsb' 0 8

/-- Decoding a `sym_in` word (R62): total, one instruction for each of the 512 words. -/
def decodeSym (ws : List Byte) (w : Sym9) : Instr :=
  if symEnd w then .endOfString else instrOfClass (lut ws (symChar w))

/-- Decoding a `tru_req` word (R70): every word is a TRU.REQ. -/
def decodeReq (q : TReq164) : Instr :=
  .truReq (q.extractLsb' 160 4) (q.extractLsb' 0 160)

/-- Why a word is no instruction: only a one-bit signal at 0 is none (R74: "0 is no event"). -/
inductive DecodeReject where
  | noEvent
  deriving DecidableEq, Repr

/-- A one-bit event (R74): 1 is the instruction, 0 is rejected by name. -/
def decodeEvent (v : BitVec 1) (i : Instr) : Except DecodeReject Instr :=
  if v = 1 then .ok i else .error .noEvent

/-- The decoder: total on the words of every channel. -/
def decode (ws : List Byte) : BeatWord → Except DecodeReject Instr
  | .symIn w => .ok (decodeSym ws w)
  | .b32Ready v => decodeEvent v .b32Take
  | .truReq q => .ok (decodeReq q)
  | .truReady v => decodeEvent v .truTake
  | .rst v => decodeEvent v .reset

/-! ## The encoder -/

/-- The `sym_in` word of a character: `end = 0` (R61). -/
def symWord (c : Byte) : Sym9 := (0 : BitVec 1) ++ c

/-- The END word a host should send (R68). -/
def endWord : Sym9 := 0x100

/-- The `tru_req` word of a request: `digits` above `digest` (R70). -/
def reqWord (digits : BitVec 4) (digest : Digest) : TReq164 := digits ++ digest

/-- The upper-case code or digit code of an index (R64). -/
def alphaCode (idx : BitVec 5) : Byte := alphabet.getD idx.toNat 0x41

/-- The lower-case alias of an index, or the digit's own code (R64). -/
def aliasCode (idx : BitVec 5) : Byte :=
  if idx.toNat < 26 then alphaCode idx + 0x20 else alphaCode idx

/-- All 256 character codes, in order. -/
def allCodes : List Byte := (List.range 256).map (BitVec.ofNat 8)

/-- A character code for each class: the upper-case code of an index unless `WS_SET` holds it, else its alias;
the first whitespace code; `=`; the lowest invalid code. -/
def classCode (ws : List Byte) : CharClass → Byte
  | .alpha idx => if alphaCode idx ∈ ws then aliasCode idx else alphaCode idx
  | .ws => ws.headD 0x20
  | .pad => padChar
  | .invalid => (allCodes.find? (fun c => lut ws c = .invalid)).getD 0

/-- The word of an instruction on its channel (R61, R68, R70, R74). -/
def encode (ws : List Byte) : Instr → BeatWord
  | .symAlpha idx => .symIn (symWord (classCode ws (.alpha idx)))
  | .symWs => .symIn (symWord (classCode ws .ws))
  | .symPad => .symIn (symWord (classCode ws .pad))
  | .symInvalid => .symIn (symWord (classCode ws .invalid))
  | .endOfString => .symIn endWord
  | .b32Take => .b32Ready 1
  | .truReq digits digest => .truReq (reqWord digits digest)
  | .truTake => .truReady 1
  | .reset => .rst 1

/-! ## The opcode table's own numbering -/

/-- The word on a channel that `nbits` table bits of value `w` stand for (log entry 6).
The table gives a row no channel in its bits, so the channel is read from the width: 9 bits (16 in whole bytes)
are a `sym_in` word, more are a `tru_req` word, and at most 8 bits a one-bit event. A one-bit 1 is laid on every one-bit
input at once, where `rst` has priority (R190); an all-zero row of at most 8 bits can only be TRU.REQ, whose
table entry fixes no bit. A value that has a bit outside the format is no word. -/
def tableWord (nbits w : Nat) : Option BeatWord :=
  if nbits ≤ 8 then
    if w = 1 then some (.rst 1) else if w = 0 then some (.truReq 0) else none
  else if nbits ≤ 16 then
    if w < 2 ^ 9 then some (.symIn (BitVec.ofNat 9 w)) else none
  else
    if w < 2 ^ 164 then some (.truReq (BitVec.ofNat 164 w)) else none

/-- The instruction the decoder reads from a row of the opcode table, under the default `WS_SET`. -/
def decodeTableWord (nbits w : Nat) : Option Instr :=
  (tableWord nbits w).bind fun b => (decode Config.default.wsSet b).toOption

end Sys2Proof
end

