-- ==== Sys2Proof/Machine/State.lean ====
section
/-! DEFINITION. The state of the block, its configuration and the host's end of its channels, as plain data
(spec/10_state.md). -/

namespace Sys2Proof.Machine

/-- A unit's phase register (R11, R21): it takes input, or it offers a result. -/
inductive Phase where
  | accept
  | done
  deriving DecidableEq, Repr

/-- The registers of B32D (R10 to R17). -/
structure B32 where
  /-- R11 -/
  phase : Phase
  /-- R12: the pending bits, right-aligned -/
  acc : BitVec 7
  /-- R13: how many bits are pending -/
  nbits : BitVec 3
  /-- R14 -/
  padSeen : Bool
  /-- R15 -/
  nonempty : Bool
  /-- R16: the sticky fault register -/
  err : ErrCode
  /-- R17: the secret buffer -/
  buf : List Byte
  deriving DecidableEq, Repr

/-- The registers of the TRU (R10, R21 to R24). -/
structure Tru where
  /-- R21 -/
  phase : Phase
  /-- R22 -/
  err : ErrCode
  /-- R23: how many characters of `code` count -/
  ndig : BitVec 4
  /-- R24 -/
  code : Vector Byte 10
  deriving DecidableEq, Repr

/-- The record B32D offers on `b32_res` (R20). -/
structure B32Res where
  err : ErrCode
  slen : Nat
  data : List Byte
  keyEmpty : Bool
  deriving DecidableEq, Repr

/-- The record the TRU offers on `tru_res` (R26). -/
structure TruRes where
  err : ErrCode
  ndig : BitVec 4
  code : List Byte
  deriving DecidableEq, Repr

/-- What moves in one step: the reset line, and at most one channel (log entry 1). -/
structure Turn where
  rst : Bool
  chan : Option Channel
  deriving DecidableEq, Repr

/-- What one `sym_in` word contributes to a string: a character, or the END that closes it. The `char` bits of an END word are no
part of it (R61, R68, U2). -/
inductive StringItem where
  | char (c : Byte)
  | close
  deriving DecidableEq, Repr

/-- The host's end of the channels: the model's own data, no state of the block (log entries 1, 10 and 23). -/
structure HostEnd where
  /-- the words waiting on `sym_in`, oldest first: the host holds each until it is accepted (R200) -/
  symIn : List Sym9
  /-- the words waiting on `tru_req`, oldest first -/
  truReq : List TReq164
  /-- what moves in the coming steps, next one first -/
  turns : List Turn
  /-- the `b32_res` records taken, oldest first (R97) -/
  b32Taken : List B32Res
  /-- the `tru_res` records taken, oldest first (R128) -/
  truTaken : List TruRes
  /-- what has been accepted of the string begun and not yet taken; empty between strings (R194) -/
  symOpen : List StringItem
  /-- the strings the host set out to present and must still bring to a taken result: each one a RESET abandoned, by what was
  accepted of it so far (R192, R194) -/
  symOwed : List (List StringItem)
  /-- the accepted request whose result is not yet taken (R194) -/
  reqOpen : Option TReq164
  /-- the requests the host set out to present and must still bring to a taken result: each one a RESET abandoned (R192, R194) -/
  reqOwed : List TReq164
  deriving DecidableEq, Repr

/-- The whole state: the instance's parameters, which no step changes (R10), the two units, and the host's end. -/
structure State where
  cfg : Config
  b32 : B32
  tru : Tru
  host : HostEnd
  deriving DecidableEq, Repr

/-- Why the machine stops with a fault: never. The block has no trap and no stop; a fault of the spec is a code in
`err` and travels as data (spec/60_exceptions.md R176), so this type has no constructor. -/
inductive Fault where
  deriving DecidableEq, Repr

/-- Why an instruction has no meaning. -/
inductive Refusal where
  /-- An instruction without a meaning in this model; raised by no arm of `exec` (safe). -/
  | notModelled (mnemonic : String)
  /-- B32.TAKE or TRU.TAKE in phase ACCEPT, where the channel's `valid` is 0: it "cannot occur" (R100, R130), and the
  spec has a model refuse it (spec/93_implementation_defined.md U9, "no move in the model"). Raised by the meanings of the two
  TAKEs (safe; log entry 3). No step raises it, since without `valid` there is no beat. -/
  | takeWithoutValid (channel : Channel)
  deriving DecidableEq, Repr

/-- The idle state of B32D: its reset state, and its state after every TAKE (R19). -/
def B32.idle : B32 where
  phase := .accept
  acc := 0
  nbits := 0
  padSeen := false
  nonempty := false
  err := 0
  buf := []

/-- The idle state of the TRU: its reset state, and its state after every TAKE (R30, R32). -/
def Tru.idle : Tru where
  phase := .accept
  err := 0
  ndig := 0
  code := Vector.replicate 10 0

/-- A host that presents nothing, has taken nothing and owes nothing. -/
def HostEnd.quiet : HostEnd where
  symIn := []
  truReq := []
  turns := []
  b32Taken := []
  truTaken := []
  symOpen := []
  symOwed := []
  reqOpen := none
  reqOwed := []

/-- The machine right after reset (R32), with the default parameters and a host that presents nothing. -/
def State.reset : State where
  cfg := Config.default
  b32 := B32.idle
  tru := Tru.idle
  host := HostEnd.quiet

end Sys2Proof.Machine
end

