-- ==== Sys2Proof/Machine/Flags.lean ====
section
/-! DEFINITION. The fault codes and the flags `pad_seen`, `nonempty` and `err` of B32D
(spec/60_exceptions.md R170, spec/10_state.md R14 to R16). -/

namespace Sys2Proof.Machine

/-- The faults by name (R170). Codes 2, 3 and 5 are the host's; `reserved` is code 7, never produced (U13). -/
inductive FaultName where
  | invalidSecretFormat
  | emptySecret
  | counterOverflow
  | invalidDigits
  | invalidStep
  | secretTooLong
  | reserved
  deriving DecidableEq, Repr

/-- The code of a fault (R170). -/
def FaultName.code : FaultName → ErrCode
  | .invalidSecretFormat => 1
  | .emptySecret => 2
  | .counterOverflow => 3
  | .invalidDigits => 4
  | .invalidStep => 5
  | .secretTooLong => 6
  | .reserved => 7

/-- The fault a code names; 0 is no fault (R170). -/
def faultOfCode (c : ErrCode) : Option FaultName :=
  match c.toNat with
  | 0 => none
  | 1 => some .invalidSecretFormat
  | 2 => some .emptySecret
  | 3 => some .counterOverflow
  | 4 => some .invalidDigits
  | 5 => some .invalidStep
  | 6 => some .secretTooLong
  | _ => some .reserved

/-- No fault is recorded in the transaction so far (R16). -/
def B32.clean (b : B32) : Bool := b.err = 0

/-- `pad_seen <- 1` (R94). -/
def B32.markPad (b : B32) : B32 := { b with padSeen := true }

/-- The string closed without an alphabet character: END's fault condition (R96). -/
def B32.endsEmpty (b : B32) : Bool := b.clean && !b.nonempty

/-- `key_empty` (R20): a success with zero bytes. -/
def B32.keyEmpty (b : B32) : Bool := b.clean && b.buf.isEmpty

end Sys2Proof.Machine
end

