-- ==== Sys2Proof/Machine/Operands.lean ====
section
/-! DEFINITION. The values inside a step: the bit-slicer's shifted accumulator (spec/40_base32_decoder.md R92) and the
truncation of a digest (spec/41_truncation_unit.md R120 to R127, spec/30_encoding.md R72). -/

namespace Sys2Proof.Machine

/-! ## The bit-slicer -/

/-- `t = (zext_12(acc) << 5) | zext_12(idx)`: the pending bits, then the five new ones (R92). -/
def shiftedAcc (acc : BitVec 7) (idx : BitVec 5) : BitVec 12 :=
  (acc.setWidth 12 <<< 5) ||| idx.setWidth 12

/-- `n' = nbits + 5`: how many bits of `t` count (R92). -/
def bitsAfterPush (nbits : BitVec 3) : Nat := nbits.toNat + 5

/-- `t[n'-1 : n'-8]`: the top eight significant bits, for `n' ≥ 8` (R92). -/
def topByte (t : BitVec 12) (n : Nat) : Byte := t.extractLsb' (n - 8) 8

/-- `zext_7(t mod 2^(n'-8))`: the bits left after a byte is cut off (R92). -/
def restBits (t : BitVec 12) (n : Nat) : BitVec 7 := BitVec.ofNat 7 (t.toNat % 2 ^ (n - 8))

/-! ## The truncation unit -/

/-- `digest[i]`, bits `[159-8i : 152-8i]` of the digest field, for `i ≤ 19` (R44, R70). -/
def digestByte (d : Digest) (i : Nat) : Byte := d.extractLsb' (152 - 8 * i) 8

/-- `offset = digest[19] & 0x0F` (R123). -/
def truncOffset (d : Digest) : Nat := (digestByte d 19 &&& 0x0F).toNat

/-- `bin`: the four bytes from `offset`, big-endian, without the top bit: 31 bits (R72, R124, R125). -/
def binValue (d : Digest) : BitVec 31 :=
  let o := truncOffset d
  (digestByte d o).extractLsb' 0 7 ++ digestByte d (o + 1) ++ digestByte d (o + 2) ++ digestByte d (o + 3)

/-- `cval = bin mod 10^digits` (R126). -/
def codeValue (d : Digest) (digits : Nat) : Nat := (binValue d).toNat % 10 ^ digits

/-- `digit_char` (R8): the character code of a decimal digit. -/
def digitChar (n : Nat) : Byte := 0x30 + BitVec.ofNat 8 n

/-- Character `j` of `v` written in decimal with `digits` characters (R127). -/
def decimalChar (v digits j : Nat) : Byte := digitChar (v / 10 ^ (digits - 1 - j) % 10)

/-- `trunc(digest, digits)` (R120), for `1 ≤ digits ≤ 10`. -/
def trunc (d : Digest) (digits : Nat) : List Byte :=
  (List.range digits).map (decimalChar (codeValue d digits) digits)

/-- The legal digit counts, 1 to 10 (R71, R122). -/
def digitsLegal (digits : BitVec 4) : Bool := 1 ≤ digits.toNat && digits.toNat ≤ 10

/-- The ten bytes of `tru.code` for a string of characters: `0x00` beyond its end (R24, R121). -/
def codeOf (chars : List Byte) : Vector Byte 10 := Vector.ofFn fun j => chars.getD j.val 0x00

end Sys2Proof.Machine
end

