-- ==== Sys2Proof/Machine/Ops.lean ====
section
/-! DEFINITION. The named operations: field updates, recording a fault and returning from one, the bit-slicer's push, the
result records, and what the channels do in a step (spec/10_state.md, 40, 41, 60, 70). -/

namespace Sys2Proof.Machine

/-! ## Updates -/

/-- The state with another B32D. -/
def State.setB32 (s : State) (b : B32) : State := { s with b32 := b }

/-- The state with another TRU. -/
def State.setTru (s : State) (t : Tru) : State := { s with tru := t }

/-- The state with another host's end. -/
def State.setHost (s : State) (h : HostEnd) : State := { s with host := h }

/-! ## Recording a fault (R176) and returning from one (R177) -/

/-- `raise` in B32D: the fault register is written, nothing else (R176). -/
def B32.raise (f : FaultName) (b : B32) : B32 := { b with err := f.code }

/-- The TRU offers a fault: the code is in `err`, and no digit is published (R121, R176). -/
def Tru.raised (f : FaultName) : Tru where
  phase := .done
  err := f.code
  ndig := 0
  code := codeOf []

/-- The return from a fault, and from a success, in B32D: every register is cleared (R97, R177). -/
def B32.cleared : B32 := B32.idle

/-- The return from a fault, and from a success, in the TRU (R128, R177). -/
def Tru.cleared : Tru := Tru.idle

/-! ## The steps of B32D -/

/-- While a fault is recorded a symbol changes nothing: the rest of the string is drained (R91). -/
def B32.unlessFaulted (f : B32 → B32) (b : B32) : B32 := if b.clean then f b else b

/-- A byte number `len(buf) + 1` does not fit a finite `SECRET_MAX` (R92). -/
def B32.full (secretMax : Option Nat) (b : B32) : Bool := secretMax = some b.buf.length

/-- The five bits are kept pending: fewer than eight bits are there (R92). -/
def B32.load (idx : BitVec 5) (b : B32) : B32 :=
  { b with
    acc := (shiftedAcc b.acc idx).setWidth 7
    nbits := BitVec.ofNat 3 (bitsAfterPush b.nbits)
    nonempty := true }

/-- A byte is cut off the top and appended to the secret buffer (R92). -/
def B32.emit (idx : BitVec 5) (b : B32) : B32 :=
  let t := shiftedAcc b.acc idx
  let n := bitsAfterPush b.nbits
  { b with
    acc := restBits t n
    nbits := BitVec.ofNat 3 (n - 8)
    nonempty := true
    buf := b.buf ++ [topByte t n] }

/-- The body of SYM.ALPHA where no fault is recorded (R92). -/
def B32.push (secretMax : Option Nat) (idx : BitVec 5) (b : B32) : B32 :=
  if b.padSeen then b.raise .invalidSecretFormat
  else if bitsAfterPush b.nbits < 8 then b.load idx
  else if b.full secretMax then b.raise .secretTooLong
  else b.emit idx

/-- The body of END (R96). -/
def B32.close (b : B32) : B32 :=
  { (if b.endsEmpty then b.raise .invalidSecretFormat else b) with phase := .done }

/-- A `sym_in` beat: accepted in phase ACCEPT (R91); in phase DONE it is not accepted and changes nothing (R99). -/
def State.symBeat (f : B32 → B32) (s : State) : State :=
  match s.b32.phase with
  | .accept => s.setB32 (f s.b32)
  | .done => s

/-! ## The step of the TRU -/

/-- The body of TRU.REQ (R121). -/
def Tru.request (digits : BitVec 4) (digest : Digest) : Tru :=
  if digitsLegal digits then
    { phase := .done, err := 0, ndig := digits, code := codeOf (trunc digest digits.toNat) }
  else Tru.raised .invalidDigits

/-! ## The result channels -/

/-- The record of B32D (R20); on a fault no decoded byte is in it. -/
def B32.record (b : B32) : B32Res where
  err := b.err
  slen := if b.clean then b.buf.length else 0
  data := if b.clean then b.buf else []
  keyEmpty := b.keyEmpty

/-- The record of the TRU (R26). -/
def Tru.record (t : Tru) : TruRes where
  err := t.err
  ndig := t.ndig
  code := t.code.toList.take t.ndig.toNat

/-- `code_str`: `code[j]` at bits `[79-8j : 72-8j]` (R26). -/
def Tru.codeStr (t : Tru) : BitVec 80 :=
  t.code.toList.foldl (fun acc c => acc <<< 8 ||| c.setWidth 80) 0

/-- `b32_res`: the record while `valid = 1`, and no value while `valid = 0` (R20, U1). -/
def State.b32Res (s : State) : Option B32Res :=
  match s.b32.phase with
  | .accept => none
  | .done => some s.b32.record

/-- `tru_res`: the record while `valid = 1`, and no value while `valid = 0` (R26, U1). -/
def State.truRes (s : State) : Option TruRes :=
  match s.tru.phase with
  | .accept => none
  | .done => some s.tru.record

/-- `sym_in.ready` (R91). -/
def State.symInReady (s : State) : Bool := s.b32.phase = .accept

/-- `tru_req.ready` (R121). -/
def State.truReqReady (s : State) : Bool := s.tru.phase = .accept

/-- `b32_res.valid` (R20). -/
def State.b32ResValid (s : State) : Bool := s.b32.phase = .done

/-- `tru_res.valid` (R26). -/
def State.truResValid (s : State) : Bool := s.tru.phase = .done

/-- The host receives a `b32_res` record (R97). -/
def HostEnd.receiveB32 (h : HostEnd) (r : B32Res) : HostEnd := { h with b32Taken := h.b32Taken ++ [r] }

/-- The host receives a `tru_res` record (R128). -/
def HostEnd.receiveTru (h : HostEnd) (r : TruRes) : HostEnd := { h with truTaken := h.truTaken ++ [r] }

/-! ## The channels in a step -/

/-- The word that moves in a turn. With `rst = 1` that is RESET, whatever channel the turn names as well:
RESET has priority over a beat presented in the same step (R190). -/
def HostEnd.wordOf (h : HostEnd) (t : Turn) : Option BeatWord :=
  if t.rst then some (.rst 1)
  else match t.chan with
    | none => none
    | some .symIn => h.symIn.head?.map .symIn
    | some .b32Res => some (.b32Ready 1)
    | some .truReq => h.truReq.head?.map .truReq
    | some .truRes => some (.truReady 1)

/-- A waiting word whose unit accepts it, `sym_in` first: what moves once no turn says otherwise, so that a word that stays
presented is accepted (R204 b). -/
def State.ripeWord (s : State) : Option BeatWord :=
  if s.symInReady && !s.host.symIn.isEmpty then s.host.symIn.head?.map .symIn
  else if s.truReqReady then s.host.truReq.head?.map .truReq
  else none

/-- The word presented in this step: that of the next turn, or a ripe one when no turn is left (log entry 1). -/
def State.presented (s : State) : Option BeatWord :=
  match s.host.turns with
  | [] => s.ripeWord
  | t :: _ => s.host.wordOf t

/-- Both sides of the channel are ready: the beat happens (R60, R74). -/
def State.handshake (s : State) : BeatWord → Bool
  | .symIn _ => s.symInReady
  | .b32Ready _ => s.b32ResValid
  | .truReq _ => s.truReqReady
  | .truReady _ => s.truResValid
  | .rst _ => true

/-- The host's turn is over; every word it presents still waits (R200). -/
def HostEnd.spendTurn (h : HostEnd) : HostEnd := { h with turns := h.turns.tail }

/-- What a `sym_in` word contributes to its string (R61, R68). -/
def stringItem (w : Sym9) : StringItem := if symEnd w then .close else .char (symChar w)

/-- A `sym_in` word is accepted: it leaves the channel, and what it contributes belongs to the open string. -/
def HostEnd.acceptSym (h : HostEnd) (w : Sym9) : HostEnd :=
  { h with symIn := h.symIn.tail, symOpen := h.symOpen ++ [stringItem w] }

/-- A `tru_req` word is accepted: it leaves the channel and is the open request. -/
def HostEnd.acceptReq (h : HostEnd) (q : TReq164) : HostEnd :=
  { h with truReq := h.truReq.tail, reqOpen := some q }

/-- The owed strings without the one that `items` presents again: the longest of those that `items` starts with, if there is one. -/
def settleString (owed : List (List StringItem)) (items : List StringItem) : List (List StringItem) :=
  owed.eraseP fun p => p.isPrefixOf items && owed.all fun q => !q.isPrefixOf items || q.length ≤ p.length

/-- The owed strings after the string begun with `items` is abandoned, each owed once however often it is abandoned: an owed
string that starts with `items` is this one; an owed string that `items` starts with is this one, known now by more; else
`items` is owed anew (R192, log entry 23). -/
def oweString (owed : List (List StringItem)) (items : List StringItem) : List (List StringItem) :=
  if owed.any fun p => items.isPrefixOf p then owed else settleString owed items ++ [items]

/-- The owed requests after `q` is abandoned: it is owed once however often it is abandoned (R192, log entry 23). -/
def oweRequest (owed : List TReq164) (q : TReq164) : List TReq164 :=
  if owed.contains q then owed else owed ++ [q]

/-- The open string's result is taken: the owed string it presents is no longer owed (R192, R194). -/
def HostEnd.closeString (h : HostEnd) : HostEnd :=
  { h with symOpen := [], symOwed := settleString h.symOwed h.symOpen }

/-- The open request's result is taken: the owed request it presents is no longer owed (R192, R194). -/
def HostEnd.closeRequest (h : HostEnd) : HostEnd :=
  { h with
    reqOpen := none
    reqOwed := match h.reqOpen with
      | none => h.reqOwed
      | some q => h.reqOwed.erase q }

/-- RESET: the open string and the open request are abandoned, and the host owes them (R192). With none open nothing is. -/
def HostEnd.abandon (h : HostEnd) : HostEnd :=
  { h with
    symOpen := []
    symOwed := if h.symOpen.isEmpty then h.symOwed else oweString h.symOwed h.symOpen
    reqOpen := none
    reqOwed := match h.reqOpen with
      | none => h.reqOwed
      | some q => oweRequest h.reqOwed q }

/-- The beat happened: the turn is over, and the host's books follow. -/
def HostEnd.accepted (h : HostEnd) : BeatWord → HostEnd
  | .symIn w => h.spendTurn.acceptSym w
  | .truReq q => h.spendTurn.acceptReq q
  | .b32Ready _ => h.spendTurn.closeString
  | .truReady _ => h.spendTurn.closeRequest
  | .rst _ => h.spendTurn.abandon

/-- The state after a turn in which no beat happens: the block is as it was (R99, R129, R182). -/
def State.idleTurn (s : State) : State := s.setHost s.host.spendTurn

/-- The beat of this step, if one happens: its instruction, and the state it runs in (R91). -/
def State.nextBeat (s : State) : Option (Instr × State) :=
  match s.presented with
  | none => none
  | some w =>
    if s.handshake w then
      match decode s.cfg.wsSet w with
      | .ok i => some (i, s.setHost (s.host.accepted w))
      | .error _ => none
    else none

/-- The host presents `w` before anything else it holds, with a turn for it. -/
def HostEnd.present (h : HostEnd) : BeatWord → HostEnd
  | .symIn w => { h with symIn := w :: h.symIn, turns := ⟨false, some .symIn⟩ :: h.turns }
  | .b32Ready _ => { h with turns := ⟨false, some .b32Res⟩ :: h.turns }
  | .truReq q => { h with truReq := q :: h.truReq, turns := ⟨false, some .truReq⟩ :: h.turns }
  | .truReady _ => { h with turns := ⟨false, some .truRes⟩ :: h.turns }
  | .rst _ => { h with turns := ⟨true, none⟩ :: h.turns }

/-- The state with a row of the opcode table presented next (log entries 6 and 7); a value that is no word
presents nothing. -/
def State.presentTable (s : State) (nbits w : Nat) : State :=
  match tableWord nbits w with
  | some b => s.setHost (s.host.present b)
  | none => s

end Sys2Proof.Machine
end

