-- ==== Sys2Proof/Machine/Base32.lean ====
section
/-! DEFINITION. The meanings of the B32D instructions (spec/40_base32_decoder.md R92 to R97). -/

namespace Sys2Proof.Machine

/-- SYM.ALPHA: push five bits (R92). -/
def execSymAlpha (idx : BitVec 5) (s : State) : Host.Outcome State Fault Refusal :=
  .next (s.symBeat (B32.unlessFaulted (B32.push s.cfg.secretMax idx)))

/-- SYM.WS: whitespace changes no state in any mode (R93). -/
def execSymWs (s : State) : Host.Outcome State Fault Refusal :=
  .next (s.symBeat id)

/-- SYM.PAD: `=` sets `pad_seen` (R94). -/
def execSymPad (s : State) : Host.Outcome State Fault Refusal :=
  .next (s.symBeat (B32.unlessFaulted B32.markPad))

/-- SYM.INVALID: a character outside the alphabet records `InvalidSecretFormat` (R95). -/
def execSymInvalid (s : State) : Host.Outcome State Fault Refusal :=
  .next (s.symBeat (B32.unlessFaulted (B32.raise .invalidSecretFormat)))

/-- END: close the string and publish the result (R96). -/
def execEndOfString (s : State) : Host.Outcome State Fault Refusal :=
  .next (s.symBeat B32.close)

/-- B32.TAKE: the host receives the record and the unit is cleared (R97). In phase ACCEPT it cannot occur (R100, U9). -/
def execB32Take (s : State) : Host.Outcome State Fault Refusal :=
  match s.b32Res with
  | some r => .next ((s.setB32 B32.cleared).setHost (s.host.receiveB32 r))
  | none => .refused (.takeWithoutValid .b32Res)

end Sys2Proof.Machine
end

