-- ==== Sys2Proof/Machine/Reset.lean ====
section
/-! DEFINITION. The meaning of RESET (spec/70_reset_and_hazards.md R190 to R192). -/

namespace Sys2Proof.Machine

/-- RESET: both units become idle, in every state; the parameters stay (R190, R193). A pending result is discarded
unseen (R192), and the words the host presents still wait on their channels. -/
def execReset (s : State) : Host.Outcome State Fault Refusal :=
  .next ((s.setB32 B32.idle).setTru Tru.idle)

end Sys2Proof.Machine
end

