-- ==== Sys2Proof/Machine/Truncation.lean ====
section
/-! DEFINITION. The meanings of the TRU instructions (spec/41_truncation_unit.md R121, R128, R129). -/

namespace Sys2Proof.Machine

/-- TRU.REQ: truncate one digest (R121). In phase DONE the request is not accepted and changes nothing (R129). -/
def execTruReq (digits : BitVec 4) (digest : Digest) (s : State) : Host.Outcome State Fault Refusal :=
  match s.tru.phase with
  | .accept => .next (s.setTru (Tru.request digits digest))
  | .done => .next s

/-- TRU.TAKE: the host receives the code and the unit is cleared (R128). In phase ACCEPT it cannot occur (R130, U9). -/
def execTruTake (s : State) : Host.Outcome State Fault Refusal :=
  match s.truRes with
  | some r => .next ((s.setTru Tru.cleared).setHost (s.host.receiveTru r))
  | none => .refused (.takeWithoutValid .truRes)

end Sys2Proof.Machine
end

