-- ==== Sys2Proof/Machine/Dispatch.lean ====
section
/-! DEFINITION. One arm per instruction. -/

namespace Sys2Proof.Machine

def exec (i : Instr) (s : State) : Host.Outcome State Fault Refusal :=
  match i with
  | .symAlpha idx => Sys2Proof.Machine.execSymAlpha idx s
  | .symWs => Sys2Proof.Machine.execSymWs s
  | .symPad => Sys2Proof.Machine.execSymPad s
  | .symInvalid => Sys2Proof.Machine.execSymInvalid s
  | .endOfString => Sys2Proof.Machine.execEndOfString s
  | .b32Take => Sys2Proof.Machine.execB32Take s
  | .truReq digits digest => Sys2Proof.Machine.execTruReq digits digest s
  | .truTake => Sys2Proof.Machine.execTruTake s
  | .reset => Sys2Proof.Machine.execReset s

end Sys2Proof.Machine
end

