-- ==== Sys2Proof/Machine/Step.lean ====
section
/-! DEFINITION. One step: the beat of the next turn, or of a waiting word once no turn is left, or a step in which nothing happens
(spec/40_base32_decoder.md R91, spec/20_memory.md R51, R53). -/

namespace Sys2Proof.Machine

/-- One step. Where it brings a beat, its instruction runs; otherwise the block waits, unchanged (R99, R129, R182). -/
def step (s : State) : Host.Outcome State Fault Refusal :=
  match s.nextBeat with
  | some (i, t) => exec i t
  | none => .next s.idleTurn

/-- `s` with a row of the opcode table as the next beat. -/
def State.withFetchWord (s : State) (nbits w : Nat) : State := s.presentTable nbits w

end Sys2Proof.Machine
end

