-- ==== Sys2Proof/Machine/Contract.lean ====
section
/-! DEFINITION. The whole-string contract of B32D, `decode(secret: string) -> bytes` (spec/40_base32_decoder.md R90), and the
grammar of the strings it accepts (spec/30_encoding.md R78). The unit's steps do not use this file; claims hold them against it. -/

namespace Sys2Proof.Machine

/-- `idx(c)`: the index of an alphabet character (R90). -/
def alphaIdx (ws : List Byte) (c : Byte) : Option (BitVec 5) :=
  match lut ws c with
  | .alpha idx => some idx
  | .ws => none
  | .pad => none
  | .invalid => none

/-- The character is one of the alphabet's, in either case (R64). -/
def isAlpha (ws : List Byte) (c : Byte) : Bool := (alphaIdx ws c).isSome

/-- The longest suffix of `=` codes removed (R90). -/
def stripPadding (v : List Byte) : List Byte := v.rdropWhile (· = padChar)

/-- Stage 1 of `decode`: fold, drop whitespace, strip trailing `=` (R90). -/
def normalizeString (ws : List Byte) (s : List Byte) : List Byte :=
  stripPadding ((s.map fold).filter (fun c => c ∉ ws))

/-- `N`: the indices as one number, the first in the most significant place (R42, R90). -/
def bitString : List (BitVec 5) → Nat
  | [] => 0
  | i :: rest => i.toNat * 2 ^ (5 * rest.length) + bitString rest

/-- Stage 3 of `decode`: the bit string cut into bytes from its most significant end; the low bits that fill no byte are
dropped (R42, R90). -/
def sliceBytes (ix : List (BitVec 5)) : List Byte :=
  let k := ix.length
  let slen := 5 * k / 8
  let r := 5 * k % 8
  (List.range slen).map fun m => BitVec.ofNat 8 (bitString ix >>> (r + 8 * (slen - 1 - m)))

/-- `decode(s)` (R90). -/
def decodeString (ws : List Byte) (s : List Byte) : Except FaultName (List Byte) :=
  let t := normalizeString ws s
  if t.isEmpty then .error .invalidSecretFormat
  else if t.any (fun c => !isAlpha ws c) then .error .invalidSecretFormat
  else .ok (sliceBytes (t.filterMap (alphaIdx ws)))

/-- `WS_SET` holds no letter of either case, as R90 assumes; the default does not. -/
def letterFree (ws : List Byte) : Bool :=
  ws.all fun c => !(0x41 ≤ fold c && fold c ≤ 0x5A)

/-- The strings of R78: `W* L (L | W)* (= | W)*`. -/
def Accepted (ws : List Byte) (s : List Byte) : Prop :=
  ∃ (lead : List Byte) (first : Byte) (body trail : List Byte),
    s = lead ++ first :: (body ++ trail) ∧
    (∀ c ∈ lead, c ∈ ws) ∧
    isAlpha ws first = true ∧
    (∀ c ∈ body, isAlpha ws c = true ∨ c ∈ ws) ∧
    (∀ c ∈ trail, c = padChar ∨ c ∈ ws)

end Sys2Proof.Machine
end

