-- ==== Sys2Proof/Machine/HostSide.lean ====
section
/-! DEFINITION. The host's side of the contract (spec/42_host_composition.md): counter, message, `generate`, `generateBatch`, and
the session in which the host drives the block from a Base32 string to a code. The host's integers are unbounded. -/

namespace Sys2Proof.Machine

/-- `STEP_DEFAULT` (R6). -/
def stepDefault : Int := 30

/-- `DIGITS_DEFAULT` (R6). -/
def digitsDefault : Int := 6

/-- The counter `floor(epochSeconds / step)`, an unsigned 64-bit integer (R141). -/
def hotpCounter (epochSeconds step : Int) : Except FaultName (BitVec 64) :=
  if step ≤ 0 then .error .invalidStep
  else if epochSeconds < 0 then .error .counterOverflow
  else if epochSeconds / step ≥ 2 ^ 64 then .error .counterOverflow
  else .ok (BitVec.ofInt 64 (epochSeconds / step))

/-- The 8-byte big-endian message (R45, R142). -/
def hotpMessage (counter : BitVec 64) : List Byte :=
  (List.range 8).map fun j => BitVec.ofNat 8 (counter.toNat >>> (8 * (7 - j)))

/-- The host's test of the digit count (R144). -/
def hostDigitsLegal (digits : Int) : Bool := 1 ≤ digits && digits ≤ 10

/-- `generate`, with the checks in the order R144 writes them (R146 leaves the order open; log entry 11). -/
def generate (secret : List Byte) (epochSeconds : Int) (step : Int := stepDefault)
    (digits : Int := digitsDefault) : Except FaultName (List Byte) :=
  match hotpCounter epochSeconds step with
  | .error f => .error f
  | .ok counter =>
    if secret.isEmpty then .error .emptySecret
    else if hostDigitsLegal digits then
      .ok (trunc (Config.hmacSha1 secret (hotpMessage counter)) digits.toNat)
    else .error .invalidDigits

/-- The faults of `generate` whose condition holds, in no order that counts: what R146 makes normative. -/
def generateFaults (secret : List Byte) (epochSeconds step digits : Int) : List FaultName :=
  (if step ≤ 0 then [.invalidStep] else []) ++
  (if epochSeconds < 0 ∨ (0 < step ∧ epochSeconds / step ≥ 2 ^ 64) then [.counterOverflow] else []) ++
  (if secret = [] then [.emptySecret] else []) ++
  (if digits < 1 ∨ 10 < digits then [.invalidDigits] else [])

/-- `generate(decode(s), ...)` (R147): a fault of `decode` is the result. -/
def generateFromString (ws : List Byte) (s : List Byte) (epochSeconds : Int) (step : Int := stepDefault)
    (digits : Int := digitsDefault) : Except FaultName (List Byte) :=
  match decodeString ws s with
  | .error f => .error f
  | .ok secret => generate secret epochSeconds step digits

/-- A CodeWindow; the field holds milliseconds despite its name (R149, spec/90_conflicts.md C3). -/
structure CodeWindow where
  startEpochSeconds : Int
  code : List Byte
  deriving DecidableEq, Repr

/-- `count` consecutive windows from `e` on, in ascending order; the first failing window decides (R149, R152). -/
def batchFrom (secret : List Byte) (step digits : Int) : Nat → Int → Except FaultName (List CodeWindow)
  | 0, _ => .ok []
  | n + 1, e =>
    match generate secret e step digits with
    | .error f => .error f
    | .ok code =>
      match batchFrom secret step digits n (e + step) with
      | .error f => .error f
      | .ok rest => .ok (⟨e * 1000, code⟩ :: rest)

/-- `generateBatch`, anchored at the start of the current window (R149). -/
def generateBatch (secret : List Byte) (now : Int) (count : Nat) (step : Int := stepDefault)
    (digits : Int := digitsDefault) : Except FaultName (List CodeWindow) :=
  if step ≤ 0 then .error .invalidStep
  else batchFrom secret step digits count (now / step * step)

/-! ## Driving the block -/

/-- The instructions of a list of beats, run one after another. -/
def execAll : List Instr → State → Host.Outcome State Fault Refusal
  | [], s => .next s
  | i :: rest, s =>
    match exec i s with
    | .next t => execAll rest t
    | .fault f => .fault f
    | .refused r => .refused r

/-- The symbols of a string, in reading order (R41). -/
def symbolsOf (ws : List Byte) (s : List Byte) : List Instr :=
  s.map fun c => instrOfClass (lut ws c)

/-- What the host makes of a `b32_res` record: stop with its fault, stop with `EmptySecret`, or keep the secret
(R145, R153 step 2, R199). -/
def hostSecret (r : B32Res) : Except FaultName (List Byte) :=
  match faultOfCode r.err with
  | some f => .error f
  | none => if r.keyEmpty then .error .emptySecret else .ok r.data

/-- What the host makes of a `tru_res` record (R153 step 6). -/
def hostCode (r : TruRes) : Except FaultName (List Byte) :=
  match faultOfCode r.err with
  | some f => .error f
  | none => .ok r.code

/-- The host's last two interactions (R153 steps 5 and 6): one request, its record, and the TAKE. -/
def truncateOnBlock (s : State) (digits : BitVec 4) (digest : Digest) : Except FaultName (List Byte × State) :=
  match execAll [.truReq digits digest] s with
  | .next t =>
    match t.truRes, execAll [.truTake] t with
    | some r, .next u =>
      match hostCode r with
      | .error f => .error f
      | .ok code => .ok (code, u)
    | _, _ => .error .reserved
  | _ => .error .reserved

/-- The host's first two interactions (R153 steps 1 and 2): the string, END, the record, and the TAKE. -/
def decodeOnBlock (s : State) (str : List Byte) : Except FaultName (List Byte × State) :=
  match execAll (symbolsOf s.cfg.wsSet str ++ [.endOfString]) s with
  | .next t =>
    match t.b32Res, execAll [.b32Take] t with
    | some r, .next u =>
      match hostSecret r with
      | .error f => .error f
      | .ok secret => .ok (secret, u)
    | _, _ => .error .reserved
  | _ => .error .reserved

/-- The session of R153: from a Base32 string to a code, through both units, with the HMAC on the host. A block that
offers no result where one is due is reported as a fault of unknown kind; it cannot happen from idle units. -/
def hostSession (s : State) (str : List Byte) (epochSeconds : Int) (step : Int := stepDefault)
    (digits : Int := digitsDefault) : Except FaultName (List Byte × State) :=
  match decodeOnBlock s str with
  | .error f => .error f
  | .ok (secret, t) =>
    match hotpCounter epochSeconds step with
    | .error f => .error f
    | .ok counter =>
      if hostDigitsLegal digits then
        truncateOnBlock t (BitVec.ofInt 4 digits) (Config.hmacSha1 secret (hotpMessage counter))
      else .error .invalidDigits

end Sys2Proof.Machine
end

