-- ==== Sys2Proof/WellFormed.lean ====
section
/-! DEFINITION. Which instructions an instance of the block has: those some word of a channel selects.
Under the default `WS_SET` every instruction is well formed; a parameter choice that puts alphabet codes, `=` or
every code into `WS_SET` takes instructions away (spec/30_encoding.md R63). -/

namespace Sys2Proof

/-- Some character code is of this class. -/
def someCode (ws : List Byte) (k : CharClass) : Bool :=
  allCodes.any fun c => lut ws c = k

/-- An instruction that a word of its channel selects under `WS_SET = ws` (R62 to R70, R74). -/
def Instr.wf (ws : List Byte) : Instr → Bool
  | .symAlpha idx => someCode ws (.alpha idx)
  | .symWs => someCode ws .ws
  | .symPad => someCode ws .pad
  | .symInvalid => someCode ws .invalid
  | .endOfString => true
  | .b32Take => true
  | .truReq _ _ => true
  | .truTake => true
  | .reset => true

end Sys2Proof
end

