-- ==== Sys2Proof/Safety.lean ====
section
/-! DEFINITION. The terms claims are stated in: which unit an instruction steps, the invariants of the units, the end of a run, and
the stimulus of a whole transaction. -/

namespace Sys2Proof.Machine

/-- The instruction is a step of B32D alone (R50). -/
def onB32 : Instr → Bool
  | .symAlpha _ => true
  | .symWs => true
  | .symPad => true
  | .symInvalid => true
  | .endOfString => true
  | .b32Take => true
  | .truReq _ _ => false
  | .truTake => false
  | .reset => false

/-- The instruction is a step of the TRU alone (R50). -/
def onTru : Instr → Bool
  | .symAlpha _ => false
  | .symWs => false
  | .symPad => false
  | .symInvalid => false
  | .endOfString => false
  | .b32Take => false
  | .truReq _ _ => true
  | .truTake => true
  | .reset => false

/-- The instruction is a `sym_in` beat (R61). -/
def isSymIn : Instr → Bool
  | .symAlpha _ => true
  | .symWs => true
  | .symPad => true
  | .symInvalid => true
  | .endOfString => true
  | .b32Take => false
  | .truReq _ _ => false
  | .truTake => false
  | .reset => false

/-- The secret buffer fits the instance's capacity (R17). -/
def fits (secretMax : Option Nat) (n : Nat) : Prop :=
  match secretMax with
  | none => True
  | some m => n ≤ m

/-- How many bits of the alphabet symbols accepted so far B32D holds: whole bytes and pending bits (R18 b, c). -/
def B32.bitCount (b : B32) : Nat := 8 * b.buf.length + b.nbits.toNat

/-- What R16, R17 and R18 say of one state of B32D, the number of accepted symbols left open. -/
structure B32.Inv (secretMax : Option Nat) (b : B32) : Prop where
  /-- R18 (a) -/
  accSmall : b.acc.toNat < 2 ^ b.nbits.toNat
  /-- R16 -/
  errLegal : b.err = 0 ∨ b.err = 1 ∨ (b.err = 6 ∧ secretMax.isSome)
  /-- R17 -/
  bufFits : fits secretMax b.buf.length
  /-- R18 (b): some `k` accounts for `slen`, `nbits` and `nonempty` -/
  symbols : b.err = 0 → ∃ k, b.bitCount = 5 * k ∧ (b.nonempty = true ↔ 0 < k)
  /-- R18 (e) -/
  doneNonempty : b.phase = .done → b.err = 0 → b.nonempty = true

/-- What R22 to R24 and R30 say of one state of the TRU. -/
structure Tru.Inv (t : Tru) : Prop where
  /-- R30: nothing is kept outside a transaction -/
  acceptIdle : t.phase = .accept → t = Tru.idle
  /-- R22 -/
  errLegal : t.err = 0 ∨ t.err = 4
  /-- R23 -/
  ndigLegal : t.phase = .done → t.err = 0 → 1 ≤ t.ndig.toNat ∧ t.ndig.toNat ≤ 10
  /-- R23 -/
  faultNoDigits : t.err = 4 → t.ndig = 0
  /-- R24 -/
  digitsShown : ∀ j : Fin 10, j.val < t.ndig.toNat → 0x30 ≤ t.code[j] ∧ t.code[j] ≤ 0x39
  /-- R24 -/
  restZero : ∀ j : Fin 10, t.ndig.toNat ≤ j.val → t.code[j] = 0

/-- The invariant of the block. -/
structure State.Inv (s : State) : Prop where
  b32 : s.b32.Inv s.cfg.secretMax
  tru : s.tru.Inv

/-- A record that R20 allows: `slen` is the length of `data`, a fault publishes nothing, and `key_empty` says a success with
zero bytes. -/
def B32Res.Sound (r : B32Res) : Prop :=
  r.slen = r.data.length ∧ (r.err ≠ 0 → r.data = []) ∧ (r.keyEmpty = true ↔ r.err = 0 ∧ r.data = [])

/-- A record that R26 and R127 allow: `ndig` characters, each a decimal digit. -/
def TruRes.Sound (r : TruRes) : Prop :=
  r.code.length = r.ndig.toNat ∧ (∀ c ∈ r.code, 0x30 ≤ c ∧ c ≤ 0x39) ∧ (r.err ≠ 0 → r.code = [])

/-- The host's books agree with the block: a string is open while B32D is not idle, what was accepted of it ends with END exactly in
phase DONE, and a request is open exactly in phase DONE of the TRU. -/
structure State.Booked (s : State) : Prop where
  begun : s.host.symOpen = [] → s.b32 = B32.idle
  ended : s.b32.phase = .done ↔ s.host.symOpen.getLast? = some .close
  requested : s.tru.phase = .done ↔ s.host.reqOpen.isSome = true

/-- The run is over (R194): every word has been accepted, no string is begun and not ended, every result has been taken, what the
host set out to present and a RESET abandoned has been presented again to a taken result, and both units are idle. -/
def Final (s : State) : Prop :=
  s.b32 = B32.idle ∧ s.tru = Tru.idle ∧ s.host.symIn = [] ∧ s.host.truReq = [] ∧
  s.host.symOpen = [] ∧ s.host.symOwed = [] ∧ s.host.reqOpen = none ∧ s.host.reqOwed = []

/-- A turn in which the host moves on one channel and leaves `rst` at 0. -/
def turnOn (c : Channel) : Turn := ⟨false, some c⟩

/-- The words of a string, closed by END (R76). -/
def stringWords (str : List Byte) : List Sym9 := str.map symWord ++ [endWord]

/-- What those words contribute: the string's characters, then END (R76). -/
def stringItems (str : List Byte) : List StringItem := str.map .char ++ [.close]

/-- The turns of a string of `n` characters, its END and the TAKE of its result: `n + 2` (R204). -/
def stringTurns (n : Nat) : List Turn := List.replicate (n + 1) (turnOn .symIn) ++ [turnOn .b32Res]

/-- The record R98 promises for a string. -/
def promisedRecord (ws : List Byte) (str : List Byte) : B32Res :=
  match decodeString ws str with
  | .error f => ⟨f.code, 0, [], false⟩
  | .ok bytes => ⟨0, bytes.length, bytes, bytes.isEmpty⟩

/-- A string of decimal digit characters read as a number. -/
def decimalValue (code : List Byte) : Nat := code.foldl (fun n c => 10 * n + (c.toNat - 0x30)) 0

/-- A sequence of bytes read as a big-endian number. -/
def bigEndian (bytes : List Byte) : Nat := bytes.foldl (fun n c => 256 * n + c.toNat) 0

end Sys2Proof.Machine
end

