-- ==== Sys2Proof/Certificates/Slice0/Obligations.lean ====
section
/-! DEFINITION. What the provers are asked: statements about the block, from the numbered rules of spec/. -/

open Sys2Proof Sys2Proof.Machine

/-! ## Encoding -/

/-- Words written out from spec/95_test_vectors.md 2.5 and 3.3 and from R74 decode to the instructions they stand for. -/
def Obligations.SpecWordsDecode : Prop :=
  let ws := Config.default.wsSet
  decode ws (.symIn 0x04D) = .ok (.symAlpha 12) ∧
  decode ws (.symIn 0x07A) = .ok (.symAlpha 25) ∧
  decode ws (.symIn 0x037) = .ok (.symAlpha 31) ∧
  decode ws (.symIn 0x020) = .ok .symWs ∧
  decode ws (.symIn 0x03D) = .ok .symPad ∧
  decode ws (.symIn 0x02D) = .ok .symInvalid ∧
  decode ws (.symIn 0x100) = .ok .endOfString ∧
  decode ws (.symIn 0x13D) = .ok .endOfString ∧
  decode ws (.b32Ready 1) = .ok .b32Take ∧
  decode ws (.truReq 0xa000102030405060708090a0b0c0d0e0f10111253) =
    .ok (.truReq 10 0x000102030405060708090a0b0c0d0e0f10111253) ∧
  decode ws (.truReady 1) = .ok .truTake ∧
  decode ws (.rst 1) = .ok .reset ∧
  decode ws (.rst 0) = .error .noEvent

/-- Every instruction that some word selects is read back from its own encoding, with every operand at every value and under
every whitespace set (R61 to R70, R74). -/
def Obligations.DecodeEncodeRoundTrip : Prop :=
  ∀ (ws : List Byte) (i : Instr), i.wf ws = true → decode ws (encode ws i) = .ok i

/-- What the decoder reads is an instruction of the instance: some word selects it. -/
def Obligations.DecodedIsWellFormed : Prop :=
  ∀ (ws : List Byte) (w : BeatWord) (i : Instr), decode ws w = .ok i → i.wf ws = true

/-- R62: a `sym_in` word with bit 8 set is END; any other selects the instruction of its character's class, so each of the 512
words is exactly one instruction. -/
def Obligations.SymWordSelectsOneInstruction : Prop :=
  ∀ (ws : List Byte) (w : Sym9),
    decode ws (.symIn w) = .ok
      (if 256 ≤ w.toNat then .endOfString
       else match lut ws (BitVec.ofNat 8 w.toNat) with
        | .alpha idx => .symAlpha idx
        | .ws => .symWs
        | .pad => .symPad
        | .invalid => .symInvalid)

/-- R63 and R64: outside `WS_SET`, the codes of index 0 to 25 are the upper-case letter and its lower-case alias, those of index
26 to 31 the digits `2` to `7`, and no other code is an alphabet character. -/
def Obligations.LutIndexIsAlphabetPosition : Prop :=
  ∀ (ws : List Byte) (c : Byte) (idx : BitVec 5),
    lut ws c = .alpha idx ↔
      c ∉ ws ∧
      ((idx.toNat < 26 ∧ (c.toNat = 0x41 + idx.toNat ∨ c.toNat = 0x61 + idx.toNat)) ∨
       (26 ≤ idx.toNat ∧ c.toNat = 0x32 + (idx.toNat - 26)))

/-- R64 to R67 with the default `WS_SET`: which codes are whitespace, padding and invalid, and how many there are of each class. -/
def Obligations.DefaultClassesOfCodes : Prop :=
  let ws := Config.default.wsSet
  (∀ c : Byte, lut ws c = .ws ↔ c.toNat ∈ [0x09, 0x0A, 0x0B, 0x0C, 0x0D, 0x20]) ∧
  (∀ c : Byte, lut ws c = .pad ↔ c.toNat = 0x3D) ∧
  (∀ c : Byte, lut ws c = .invalid ↔
    c.toNat ≤ 0x08 ∨ (0x0E ≤ c.toNat ∧ c.toNat ≤ 0x1F) ∨ (0x21 ≤ c.toNat ∧ c.toNat ≤ 0x31) ∨
    (0x38 ≤ c.toNat ∧ c.toNat ≤ 0x3C) ∨ (0x3E ≤ c.toNat ∧ c.toNat ≤ 0x40) ∨
    (0x5B ≤ c.toNat ∧ c.toNat ≤ 0x60) ∨ 0x7B ≤ c.toNat) ∧
  allCodes.countP (fun c => isAlpha ws c) = 58 ∧
  allCodes.countP (fun c => lut ws c = .ws) = 6 ∧
  allCodes.countP (fun c => lut ws c = .pad) = 1 ∧
  allCodes.countP (fun c => lut ws c = .invalid) = 191

/-- R70 and R44: the four top bits of a request word are `digits`; `digest[i]` is at bits `159-8i` down to `152-8i`. -/
def Obligations.RequestWordFields : Prop :=
  ∀ (ws : List Byte) (q : TReq164), ∃ (digits : BitVec 4) (digest : Digest),
    decode ws (.truReq q) = .ok (.truReq digits digest) ∧
    digits.toNat = q.toNat / 2 ^ 160 ∧
    ∀ i, i < 20 → (digestByte digest i).toNat = q.toNat / 2 ^ (152 - 8 * i) % 256

/-! ## Reset and the step -/

/-- R32 and R191: RESET completes in every state and leaves every register at its reset value, both inputs ready and no result
valid; the parameters and the host's end stay; and the same holds of the state the machine starts in. -/
def Obligations.ResetLeavesBothUnitsIdle : Prop :=
  let atReset (t : State) : Prop :=
    t.b32.phase = .accept ∧ t.b32.acc = 0 ∧ t.b32.nbits = 0 ∧ t.b32.padSeen = false ∧
    t.b32.nonempty = false ∧ t.b32.err = 0 ∧ t.b32.buf = [] ∧
    t.tru.phase = .accept ∧ t.tru.err = 0 ∧ t.tru.ndig = 0 ∧ (∀ j : Fin 10, t.tru.code[j] = 0) ∧
    t.b32ResValid = false ∧ t.truResValid = false ∧ t.symInReady = true ∧ t.truReqReady = true
  atReset State.reset ∧
  ∀ s : State, ∃ t, exec .reset s = .next t ∧ atReset t ∧ t.cfg = s.cfg ∧ t.host = s.host

/-- R190 and R192: with `rst = 1` the step is RESET whatever else the host presents; the presented words are not accepted and
still wait, and no record is published for an abandoned transaction. Only `rst = 1` encodes it. -/
def Obligations.ResetHasPriority : Prop :=
  (∀ (ws : List Byte) (w : BeatWord), decode ws w = .ok .reset ↔ w = .rst 1) ∧
  ∀ (s : State) (turn : Turn) (rest : List Turn), s.host.turns = turn :: rest → turn.rst = true →
    ∃ t, step s = .next t ∧ t.b32 = B32.idle ∧ t.tru = Tru.idle ∧ t.cfg = s.cfg ∧
      t.host.symIn = s.host.symIn ∧ t.host.truReq = s.host.truReq ∧ t.host.turns = rest ∧
      t.host.b32Taken = s.host.b32Taken ∧ t.host.truTaken = s.host.truTaken

/-- A step runs the decoded instruction: where a word is presented and the channel's handshake holds (R60, R91), the step is `exec`
of the decoded instruction in the state whose turn is over and whose accepted word has left its channel for the open transaction;
RESET leaves no transaction open, and the host owes each abandoned one, once (R192). The turns, the books, and a waiting word's beat once no turn is left are the model's form of the host (log entries 1 and 23). -/
def Obligations.StepRunsDecodedInstruction : Prop :=
  (∀ (s : State) (w : Sym9) (ws : List Sym9) (rest : List Turn),
    (s.host.turns = turnOn .symIn :: rest ∨ (s.host.turns = [] ∧ rest = [])) →
    s.host.symIn = w :: ws → s.b32.phase = .accept →
    ∃ i, decode s.cfg.wsSet (.symIn w) = .ok i ∧
      step s = exec i
        { s with host := { s.host with turns := rest, symIn := ws, symOpen := s.host.symOpen ++ [stringItem w] } }) ∧
  (∀ (s : State) (q : TReq164) (qs : List TReq164) (rest : List Turn),
    (s.host.turns = turnOn .truReq :: rest ∨
      (s.host.turns = [] ∧ rest = [] ∧ (s.host.symIn = [] ∨ s.b32.phase = .done))) →
    s.host.truReq = q :: qs → s.tru.phase = .accept →
    ∃ i, decode s.cfg.wsSet (.truReq q) = .ok i ∧
      step s = exec i { s with host := { s.host with turns := rest, truReq := qs, reqOpen := some q } }) ∧
  (∀ (s : State) (rest : List Turn), s.host.turns = turnOn .b32Res :: rest → s.b32.phase = .done →
    step s = exec .b32Take { s with host := { s.host.closeString with turns := rest } }) ∧
  (∀ (s : State) (rest : List Turn), s.host.turns = turnOn .truRes :: rest → s.tru.phase = .done →
    step s = exec .truTake { s with host := { s.host.closeRequest with turns := rest } }) ∧
  (∀ (s : State) (turn : Turn) (rest : List Turn), s.host.turns = turn :: rest → turn.rst = true →
    step s = exec .reset
      { s with
        host := { s.host with
          turns := rest
          symOpen := []
          symOwed := if s.host.symOpen.isEmpty then s.host.symOwed else oweString s.host.symOwed s.host.symOpen
          reqOpen := none
          reqOwed := match s.host.reqOpen with
            | none => s.host.reqOwed
            | some q => oweRequest s.host.reqOwed q } })

/-- R204 (a): every step completes; none blocks, faults or is refused. A block with no word to accept and no turn left stays as it
is: an open string and an untaken result wait for ever (R197, R198, U10; log entry 2). -/
def Obligations.EveryStepCompletes : Prop :=
  (∀ s : State, ∃ t, step s = .next t) ∧
  (∀ s : State, s.host.turns = [] → (s.host.symIn = [] ∨ s.b32.phase = .done) →
    (s.host.truReq = [] ∨ s.tru.phase = .done) → step s = .next s)

/-- R99: a `sym_in` word presented in phase DONE is not accepted; it waits and nothing but the turn changes; only B32.TAKE and
RESET lift the hold, and B32.TAKE does. -/
def Obligations.SymbolWaitsWhileResultPending : Prop :=
  ∀ s : State, s.b32.phase = .done →
    s.symInReady = false ∧
    (∀ (w : Sym9) (ws : List Sym9) (rest : List Turn),
      s.host.turns = turnOn .symIn :: rest → s.host.symIn = w :: ws →
      step s = .next { s with host := { s.host with turns := rest } }) ∧
    (∀ i, isSymIn i = true → exec i s = .next s) ∧
    (∀ i t, exec i s = .next t → t.b32.phase = .accept → i = .b32Take ∨ i = .reset) ∧
    (∃ t, exec .b32Take s = .next t ∧ t.symInReady = true)

/-- R129: a `tru_req` word presented in phase DONE is not accepted; it waits, changing nothing, until TRU.TAKE (or RESET). -/
def Obligations.RequestWaitsWhileResultPending : Prop :=
  ∀ s : State, s.tru.phase = .done →
    s.truReqReady = false ∧
    (∀ (q : TReq164) (qs : List TReq164) (rest : List Turn),
      s.host.turns = turnOn .truReq :: rest → s.host.truReq = q :: qs →
      step s = .next { s with host := { s.host with turns := rest } }) ∧
    (∀ digits digest, exec (.truReq digits digest) s = .next s) ∧
    (∀ i t, exec i s = .next t → t.tru.phase = .accept → i = .truTake ∨ i = .reset) ∧
    (∃ t, exec .truTake s = .next t ∧ t.truReqReady = true)

/-- R100 and R130: the phase of each unit after an instruction is what the two tables say of the phase before it and the event,
and a TAKE has an effect in phase DONE only. -/
def Obligations.PhaseTransitionTables : Prop :=
  ∀ (i : Instr) (s t : State), exec i s = .next t →
    t.b32.phase = (match i with
      | .reset => .accept
      | .b32Take => .accept
      | .endOfString => .done
      | _ => s.b32.phase) ∧
    t.tru.phase = (match i with
      | .reset => .accept
      | .truTake => .accept
      | .truReq _ _ => .done
      | _ => s.tru.phase) ∧
    (i = .b32Take → s.b32.phase = .done) ∧ (i = .truTake → s.tru.phase = .done)

/-! ## Invariants and whole-machine rules -/

/-- The machine starts in a state that meets the invariant, with the host's books in order. -/
def Obligations.ResetMeetsInvariant : Prop := State.reset.Inv ∧ State.reset.Booked

/-- Every step keeps R16 (legal codes), R17 (capacity), R18 a, b, e, R22, R23, R24 and the idle TRU of R30, from every state that
meets them; and it keeps the host's books of R194 in order (log entry 23): a string or request is open exactly where the unit's state
says so. -/
def Obligations.StepKeepsInvariant : Prop :=
  ∀ s t : State, step s = .next t → (s.Inv → t.Inv) ∧ (s.Booked → t.Booked)

/-- No partial result is ever delivered (R20, R26, R175): every record the host takes is a sound one. -/
def Obligations.StepDeliversSoundRecords : Prop :=
  ∀ s t : State, s.Inv →
    (∀ r ∈ s.host.b32Taken, r.Sound) → (∀ r ∈ s.host.truTaken, r.Sound) → step s = .next t →
    (∀ r ∈ t.host.b32Taken, r.Sound) ∧ (∀ r ∈ t.host.truTaken, r.Sound)

/-- R10: the parameters are configuration; no step changes them. -/
def Obligations.StepKeepsConfiguration : Prop :=
  ∀ s t : State, step s = .next t → t.cfg = s.cfg

/-- The first fault of a transaction wins (R16, R177, R178): once recorded, the code stays until B32.TAKE or RESET, and no symbol
changes anything. -/
def Obligations.FirstFaultSticks : Prop :=
  ∀ (i : Instr) (s t : State), s.b32.err ≠ 0 → exec i s = .next t → i ≠ .b32Take → i ≠ .reset →
    t.b32.err = s.b32.err ∧ (i ≠ .endOfString → t.b32 = s.b32) ∧
    (i = .endOfString → t.b32 = { s.b32 with phase := .done })

/-- R17: the secret buffer only grows inside a transaction, by at most one byte a step, and only by SYM.ALPHA. -/
def Obligations.BufferIsAppendOnly : Prop :=
  ∀ (i : Instr) (s t : State), exec i s = .next t → i ≠ .b32Take → i ≠ .reset →
    (t.b32.buf = s.b32.buf ∨ ∃ b, t.b32.buf = s.b32.buf ++ [b]) ∧
    (t.b32.buf ≠ s.b32.buf → ∃ idx, i = .symAlpha idx)

/-- R53 (b): a step of B32D and a step of the TRU commute. -/
def Obligations.UnitsCommute : Prop :=
  ∀ (i j : Instr) (s s1 s2 : State), onB32 i = true → onTru j = true →
    exec i s = .next s1 → exec j s1 = .next s2 →
    ∃ s1', exec j s = .next s1' ∧ exec i s1' = .next s2

/-- R10 and R53: what a unit does, and the record it hands over, depend on its own registers (and, for B32D, the parameters) alone. -/
def Obligations.UnitsSeeOnlyTheirOwnState : Prop :=
  (∀ (i : Instr) (s s' t : State), onB32 i = true → s'.b32 = s.b32 → s'.cfg = s.cfg → exec i s = .next t →
    ∃ t', exec i s' = .next t' ∧ t'.b32 = t.b32 ∧
      ∃ rs, t.host.b32Taken = s.host.b32Taken ++ rs ∧ t'.host.b32Taken = s'.host.b32Taken ++ rs) ∧
  (∀ (i : Instr) (s s' t : State), onTru i = true → s'.tru = s.tru → exec i s = .next t →
    ∃ t', exec i s' = .next t' ∧ t'.tru = t.tru ∧
      ∃ rs, t.host.truTaken = s.host.truTaken ++ rs ∧ t'.host.truTaken = s'.host.truTaken ++ rs)
/-! ## B32D: results and frames -/

/-- R92: SYM.ALPHA in phase ACCEPT completes. With a fault recorded it changes nothing; after a `=` it records
`InvalidSecretFormat`; otherwise the five bits are shifted in below the pending ones, and with eight or more bits the top eight are
appended as a byte, unless the byte does not fit a finite `SECRET_MAX`, which records `SecretTooLong` (R57). The characters that
select it with `idx` are those of that index in the LUT. -/
def Obligations.SymAlphaPushesFiveBits : Prop :=
  (∀ (ws : List Byte) (c : Byte) (idx : BitVec 5),
    decode ws (.symIn (symWord c)) = .ok (.symAlpha idx) ↔ lut ws c = .alpha idx) ∧
  ∀ (s : State) (idx : BitVec 5), s.b32.phase = .accept →
    ∃ t, exec (.symAlpha idx) s = .next t ∧ t.cfg = s.cfg ∧ t.tru = s.tru ∧ t.host = s.host ∧
      t.b32.phase = .accept ∧ t.b32.padSeen = s.b32.padSeen ∧
      let x := s.b32.acc.toNat * 32 + idx.toNat
      let n := s.b32.nbits.toNat + 5
      if s.b32.err ≠ 0 then t.b32 = s.b32
      else if s.b32.padSeen = true then t.b32 = { s.b32 with err := 1 }
      else if n < 8 then
        t.b32.acc.toNat = x % 128 ∧ t.b32.nbits.toNat = n ∧ t.b32.nonempty = true ∧
        t.b32.err = 0 ∧ t.b32.buf = s.b32.buf
      else if s.cfg.secretMax = some s.b32.buf.length then t.b32 = { s.b32 with err := 6 }
      else
        t.b32.acc.toNat = x % 2 ^ (n - 8) ∧ t.b32.nbits.toNat = n - 8 ∧ t.b32.nonempty = true ∧
        t.b32.err = 0 ∧
        ∃ b : Byte, b.toNat = x / 2 ^ (n - 8) % 256 ∧ t.b32.buf = s.b32.buf ++ [b]

/-- R18 (c) in one step: with `V` the buffer's bytes followed by the pending bits, read as one number, an accepted SYM.ALPHA makes
it `32 V + idx`: no bit is lost, added or moved. -/
def Obligations.SlicerLosesNoBit : Prop :=
  ∀ (s t : State) (idx : BitVec 5), s.b32.acc.toNat < 2 ^ s.b32.nbits.toNat →
    s.b32.phase = .accept → exec (.symAlpha idx) s = .next t → s.b32.err = 0 → t.b32.err = 0 →
    bigEndian t.b32.buf * 2 ^ t.b32.nbits.toNat + t.b32.acc.toNat =
      32 * (bigEndian s.b32.buf * 2 ^ s.b32.nbits.toNat + s.b32.acc.toNat) + idx.toNat ∧
    t.b32.bitCount = s.b32.bitCount + 5

/-- R93: SYM.WS completes and changes no register, in any mode; the codes of `WS_SET` select it. -/
def Obligations.SymWsChangesNothing : Prop :=
  (∀ (ws : List Byte) (c : Byte), decode ws (.symIn (symWord c)) = .ok .symWs ↔ c ∈ ws) ∧
  ∀ s : State, exec .symWs s = .next s

/-- R94: SYM.PAD completes in phase ACCEPT and sets `pad_seen`, if no fault is recorded; nothing else changes. The code 0x3D
selects it, unless `WS_SET` holds it (R63). -/
def Obligations.SymPadSetsPadSeen : Prop :=
  (∀ (ws : List Byte) (c : Byte), decode ws (.symIn (symWord c)) = .ok .symPad ↔ c ∉ ws ∧ c.toNat = 0x3D) ∧
  ∀ s : State, s.b32.phase = .accept →
    exec .symPad s = .next { s with b32 := { s.b32 with padSeen := s.b32.padSeen || s.b32.err == 0 } }

/-- R95: SYM.INVALID completes in phase ACCEPT and records `InvalidSecretFormat`, if no fault is recorded; nothing else changes.
The codes of class INVALID select it (with the default `WS_SET`, the 191 codes of R67). -/
def Obligations.SymInvalidRecordsFault : Prop :=
  (∀ (ws : List Byte) (c : Byte), decode ws (.symIn (symWord c)) = .ok .symInvalid ↔ lut ws c = .invalid) ∧
  ∀ s : State, s.b32.phase = .accept →
    exec .symInvalid s =
      .next { s with b32 := { s.b32 with err := if s.b32.err = 0 then 1 else s.b32.err } }

/-- R96: END completes in phase ACCEPT: it moves to DONE, and records `InvalidSecretFormat` for a string without an alphabet
character; nothing else changes. Exactly the words with bit 8 set select it. -/
def Obligations.EndPublishesResult : Prop :=
  (∀ (ws : List Byte) (w : Sym9), decode ws (.symIn w) = .ok .endOfString ↔ 256 ≤ w.toNat) ∧
  ∀ s : State, s.b32.phase = .accept →
    exec .endOfString s =
      .next { s with
        b32 := { s.b32 with
          phase := .done
          err := if s.b32.err = 0 ∧ s.b32.nonempty = false then 1 else s.b32.err } }

/-- R20: `b32_res` is offered exactly in phase DONE, with these fields; a fault publishes no byte. That there is no record at all in
phase ACCEPT is the model's choice (log entry 9), where R20 and U1 leave the fields without a usable value. -/
def Obligations.DecoderRecordFields : Prop :=
  ∀ s : State,
    (s.b32ResValid = true ↔ s.b32.phase = .done) ∧
    (s.b32.phase = .accept → s.b32Res = none) ∧
    (s.b32.phase = .done → s.b32Res = some
      { err := s.b32.err
        slen := if s.b32.err = 0 then s.b32.buf.length else 0
        data := if s.b32.err = 0 then s.b32.buf else []
        keyEmpty := decide (s.b32.err = 0 ∧ s.b32.buf.length = 0) })

/-- R97: B32.TAKE completes in phase DONE: the host receives the record and every register of B32D is cleared, after a success and
after a fault alike; nothing else changes. Only `b32_res.ready = 1` encodes it. -/
def Obligations.B32TakeHandsOverAndClears : Prop :=
  (∀ (ws : List Byte) (w : BeatWord), decode ws w = .ok .b32Take ↔ w = .b32Ready 1) ∧
  ∀ s : State, s.b32.phase = .done →
    ∃ t r, exec .b32Take s = .next t ∧ s.b32Res = some r ∧
      t.b32.phase = .accept ∧ t.b32.acc = 0 ∧ t.b32.nbits = 0 ∧ t.b32.padSeen = false ∧
      t.b32.nonempty = false ∧ t.b32.err = 0 ∧ t.b32.buf = [] ∧
      t.tru = s.tru ∧ t.cfg = s.cfg ∧
      t.host = { s.host with b32Taken := s.host.b32Taken ++ [r] }

/-- A TAKE without `valid` is no move: it is refused by name (R100, R130; 93_implementation_defined.md U9). -/
def Obligations.TakeWithoutValidIsRefused : Prop :=
  ∀ s : State,
    (s.b32.phase = .accept → exec .b32Take s = .refused (.takeWithoutValid .b32Res)) ∧
    (s.tru.phase = .accept → exec .truTake s = .refused (.takeWithoutValid .truRes))

/-- The frame of every B32D instruction: the TRU, the parameters and the host's end but for the records taken stay; a `sym_in` beat
hands nothing over; and each beat leaves every register it does not name. -/
def Obligations.DecoderFrame : Prop :=
  ∀ (i : Instr) (s t : State), onB32 i = true → exec i s = .next t →
    t.tru = s.tru ∧ t.cfg = s.cfg ∧ t.host = { s.host with b32Taken := t.host.b32Taken } ∧
    (isSymIn i = true → t.host.b32Taken = s.host.b32Taken) ∧
    (∀ idx, i = .symAlpha idx → t.b32.phase = s.b32.phase ∧ t.b32.padSeen = s.b32.padSeen) ∧
    (i = .symWs → t.b32 = s.b32) ∧
    (i = .symPad → t.b32 = { s.b32 with padSeen := t.b32.padSeen }) ∧
    (i = .symInvalid → t.b32 = { s.b32 with err := t.b32.err }) ∧
    (i = .endOfString → t.b32 = { s.b32 with phase := t.b32.phase, err := t.b32.err })

/-! ## B32D: whole strings -/

/-- R18: what holds after the symbols of any string from the idle state, before END (`t`) and after it (`u`). -/
def Obligations.StringStateInvariants : Prop :=
  ∀ (s : State) (str : List Byte), s.b32 = B32.idle →
    let ws := s.cfg.wsSet
    let ix := str.filterMap (alphaIdx ws)
    let holds (b : B32) : Prop :=
      b.acc.toNat < 2 ^ b.nbits.toNat ∧
      (b.err = 0 →
        b.buf.length = 5 * ix.length / 8 ∧ b.nbits.toNat = 5 * ix.length % 8 ∧
        (b.nonempty = true ↔ 0 < ix.length) ∧
        bigEndian b.buf * 2 ^ b.nbits.toNat + b.acc.toNat = bitString ix) ∧
      (b.padSeen = true → b.err = 0 →
        ∀ p c q, str = p ++ c :: q → lut ws c = .pad → ∀ d ∈ q, isAlpha ws d = false)
    ∃ t u, execAll (symbolsOf ws str) s = .next t ∧ exec .endOfString t = .next u ∧
      holds t.b32 ∧ holds u.b32 ∧
      u.b32.phase = .done ∧ (u.b32.err = 0 → u.b32.nonempty = true)

/-- R98: with an unbounded buffer, presenting the symbols of any string and END from the idle state publishes
`InvalidSecretFormat` exactly where `decode` raises it, and otherwise exactly the bytes of `decode`. The premise on `WS_SET` is
R90's own ("`WS_SET` holds no lower-case letter"), with upper-case letters as well; the default set meets it. -/
def Obligations.StreamAgreesWithDecode : Prop :=
  ∀ (s : State) (str : List Byte), s.b32 = B32.idle → s.cfg.secretMax = none →
    letterFree s.cfg.wsSet = true →
    ∃ t, execAll (symbolsOf s.cfg.wsSet str ++ [.endOfString]) s = .next t ∧
      ((∃ r, t.b32Res = some r ∧ r.err = 1) ↔
        decodeString s.cfg.wsSet str = .error .invalidSecretFormat) ∧
      (∀ f, decodeString s.cfg.wsSet str = .error f → f = .invalidSecretFormat) ∧
      (∀ bytes, decodeString s.cfg.wsSet str = .ok bytes →
        t.b32Res = some { err := 0, slen := bytes.length, data := bytes, keyEmpty := bytes.isEmpty })

/-- R78: the strings the unit accepts are exactly those of the form `W* L (L | W)* (= | W)*`; every other string ends in
`InvalidSecretFormat`. -/
def Obligations.AcceptedStringsAreTheGrammar : Prop :=
  ∀ (s : State) (str : List Byte), s.b32 = B32.idle → s.cfg.secretMax = none →
    ∃ t r, execAll (symbolsOf s.cfg.wsSet str ++ [.endOfString]) s = .next t ∧ t.b32Res = some r ∧
      ((Accepted s.cfg.wsSet str ∧ r.err = 0) ∨ (¬ Accepted s.cfg.wsSet str ∧ r.err = 1))

/-- R57, R178 and D10: with a finite `SECRET_MAX`, any string gives `SecretTooLong` and no byte if one of its prefixes decodes to more
bytes than fit, since the first fault of the stream wins, and otherwise exactly the record of `decode`. `WS_SET` holds no letter
(log entry 21). -/
def Obligations.FiniteCapacityFaults : Prop :=
  ∀ (s : State) (str : List Byte) (m : Nat), s.b32 = B32.idle →
    s.cfg.secretMax = some m → letterFree s.cfg.wsSet = true →
    let overflows : Prop := ∃ p bytes, p <+: str ∧ decodeString s.cfg.wsSet p = .ok bytes ∧ m < bytes.length
    ∃ t, execAll (symbolsOf s.cfg.wsSet str ++ [.endOfString]) s = .next t ∧
      (overflows → t.b32Res = some { err := 6, slen := 0, data := [], keyEmpty := false }) ∧
      (¬ overflows → t.b32Res = some (promisedRecord s.cfg.wsSet str))

/-- R204 with R98: on the channels, a string of `n` characters with END and its result taken is exactly `n + 2` steps, whatever
`SECRET_MAX` and `WS_SET`, after which B32D is idle, the host holds the record its symbols publish, and everything else is as it was,
but that a string abandoned before and presented again here is no longer owed. With an unbounded buffer and a `WS_SET` that holds no
letter (log entry 21) the record is that of `decode`. With nothing else waiting, open or owed the run is then over (R194), also
where this string had been abandoned before. The turns and the books are the model's form of the host (log entries 1 and 23). -/
def Obligations.StringTransactionTakesNPlusTwoSteps : Prop :=
  ∀ (s : State) (str : List Byte) (words : List Sym9) (turns : List Turn),
    s.b32 = B32.idle → s.host.symOpen = [] →
    s.host.symIn = stringWords str ++ words → s.host.turns = stringTurns str.length ++ turns →
    ∃ t r, execAll (symbolsOf s.cfg.wsSet str ++ [.endOfString]) s = .next t ∧ t.b32Res = some r ∧
      (s.cfg.secretMax = none → letterFree s.cfg.wsSet = true → r = promisedRecord s.cfg.wsSet str) ∧
      let u : State := { s with
        host := { s.host with
          symIn := words
          turns := turns
          b32Taken := s.host.b32Taken ++ [r]
          symOwed := settleString s.host.symOwed (stringItems str) } }
      Host.Core.run Sys2Proof.core (str.length + 2) s = .next u ∧
      (s.tru = Tru.idle → words = [] → s.host.truReq = [] → u.host.symOwed = [] → s.host.reqOpen = none →
        s.host.reqOwed = [] → Final u)

/-- R101 (a), (b), (c): the case of a letter, whitespace anywhere and trailing `=` do not change the result of `decode`, with a
`WS_SET` that holds no letter (log entry 21). -/
def Obligations.DecodeIgnoresCaseSpacePadding : Prop :=
  ∀ ws : List Byte, letterFree ws = true →
    (∀ s s' : List Byte, s.map fold = s'.map fold → decodeString ws s = decodeString ws s') ∧
    (∀ (p q : List Byte) (c : Byte), c ∈ ws → decodeString ws (p ++ c :: q) = decodeString ws (p ++ q)) ∧
    (∀ (s : List Byte) (n : Nat), decodeString ws (s ++ List.replicate n padChar) = decodeString ws s)

/-- R101 (d): on success the length is `(5 k) div 8`, with `k` the number of alphabet characters and a `WS_SET` that
holds no letter (log entry 21). -/
def Obligations.DecodedLength : Prop :=
  ∀ (ws s bytes : List Byte), letterFree ws = true → decodeString ws s = .ok bytes →
    bytes.length = 5 * s.countP (fun c => isAlpha ws c) / 8

/-- R101 (e): the bytes of a string without `=` are a prefix of the bytes of any longer such string, with a
`WS_SET` that holds no letter (log entry 21). -/
def Obligations.DecodeOfPrefixIsPrefix : Prop :=
  ∀ (ws s x b1 b2 : List Byte), letterFree ws = true → padChar ∉ s → padChar ∉ x →
    decodeString ws s = .ok b1 → decodeString ws (s ++ x) = .ok b2 → b1 <+: b2

/-! ## TRU -/

/-- R121 with R120 and R122 to R127: a request completes in phase ACCEPT. With 1 to 10 digits it publishes the decimal digits of
the 31-bit window value modulo `10^digits`, most significant first, with `0x00` beyond them; with any other count it publishes
`InvalidDigits` and ten `0x00`. Nothing outside the TRU changes. -/
def Obligations.TruReqPublishesCode : Prop :=
  ∀ (s : State) (digits : BitVec 4) (digest : Digest), s.tru.phase = .accept →
    let o := (digestByte digest 19).toNat % 16
    let bin := (digestByte digest o).toNat % 128 * 2 ^ 24 + (digestByte digest (o + 1)).toNat * 2 ^ 16 +
      (digestByte digest (o + 2)).toNat * 2 ^ 8 + (digestByte digest (o + 3)).toNat
    let cval := bin % 10 ^ digits.toNat
    ∃ t, exec (.truReq digits digest) s = .next t ∧ t.cfg = s.cfg ∧ t.b32 = s.b32 ∧ t.host = s.host ∧
      t.tru.phase = .done ∧
      if digits.toNat < 1 ∨ 10 < digits.toNat then
        t.tru.err = 4 ∧ t.tru.ndig = 0 ∧ ∀ j : Fin 10, t.tru.code[j] = 0
      else
        t.tru.err = 0 ∧ t.tru.ndig = digits ∧
        ∀ j : Fin 10, t.tru.code[j].toNat =
          if j.val < digits.toNat then 0x30 + cval / 10 ^ (digits.toNat - 1 - j.val) % 10 else 0

/-- R122 and R121: `InvalidDigits` is recorded exactly when the field is 0 or 11 to 15; then no digit is published, and the request
completes all the same. -/
def Obligations.InvalidDigitsExactlyOutsideRange : Prop :=
  ∀ (s : State) (digits : BitVec 4) (digest : Digest), s.tru.phase = .accept →
    ∃ t, exec (.truReq digits digest) s = .next t ∧ t.tru.phase = .done ∧
      (t.tru.err = 4 ↔ digits.toNat ∈ [0, 11, 12, 13, 14, 15]) ∧
      (t.tru.err = 4 → t.tru.ndig = 0 ∧ (∀ j : Fin 10, t.tru.code[j] = 0) ∧
        t.truRes = some { err := 4, ndig := 0, code := [] }) ∧
      (t.tru.err ≠ 4 → t.tru.err = 0)

/-- R123, R124, R125 and R49: the offset is the low nibble of the last byte, the window lies inside the digest, and the 31-bit value
is the four window bytes read big-endian with the top bit of the first masked off. -/
def Obligations.WindowValueFormula : Prop :=
  ∀ d : Digest,
    let o := truncOffset d
    o = (digestByte d 19).toNat % 16 ∧ o ≤ 15 ∧ o + 3 ≤ 18 ∧
    (binValue d).toNat =
      (((digestByte d o &&& 0x7F).toNat <<< 24) ||| ((digestByte d (o + 1)).toNat <<< 16) |||
        ((digestByte d (o + 2)).toNat <<< 8) ||| (digestByte d (o + 3)).toNat) ∧
    (binValue d).toNat ≤ 2147483647
/-- R126, R127, R132 (b): the code has exactly `digits` characters, each a decimal digit, and reads as `bin mod 10^digits`. -/
def Obligations.CodeReadsAsRemainder : Prop :=
  ∀ (d : Digest) (digits : Nat), 1 ≤ digits →
    (trunc d digits).length = digits ∧
    (∀ c ∈ trunc d digits, 0x30 ≤ c.toNat ∧ c.toNat ≤ 0x39) ∧
    decimalValue (trunc d digits) = (binValue d).toNat % 10 ^ digits

/-- R126 and R131 (e): with ten digits the code is the whole 31-bit value, and its first character is `0`, `1` or `2`. -/
def Obligations.TenDigitsShowTheWholeValue : Prop :=
  ∀ d : Digest, decimalValue (trunc d 10) = (binValue d).toNat ∧
    ∃ c rest, trunc d 10 = c :: rest ∧ c.toNat ∈ [0x30, 0x31, 0x32]

/-- R132 (a): the code depends on the digest only through the low nibble of its last byte and the 31 window bits. -/
def Obligations.OtherDigestBitsDoNotMatter : Prop :=
  ∀ (d d' : Digest) (digits : Nat),
    (digestByte d 19).toNat % 16 = (digestByte d' 19).toNat % 16 →
    (let o := (digestByte d 19).toNat % 16
     (digestByte d o).toNat % 128 = (digestByte d' o).toNat % 128 ∧
     digestByte d (o + 1) = digestByte d' (o + 1) ∧
     digestByte d (o + 2) = digestByte d' (o + 2) ∧
     digestByte d (o + 3) = digestByte d' (o + 3)) →
    trunc d digits = trunc d' digits

/-- R132 (c): a shorter code is the tail of a longer one. -/
def Obligations.ShorterCodeIsTailOfLonger : Prop :=
  ∀ (d : Digest) (d1 d2 : Nat), d1 < d2 → trunc d d1 = (trunc d d2).drop (d2 - d1)

/-- R26: `tru_res` is offered exactly in phase DONE, with these fields, and `code_str` packs `code[j]` at bits `79-8j` down to
`72-8j`. That there is no record at all in phase ACCEPT is the model's choice (log entry 9), where U1 leaves the fields without a
usable value. -/
def Obligations.TruncatorRecordFields : Prop :=
  ∀ s : State,
    (s.truResValid = true ↔ s.tru.phase = .done) ∧
    (s.tru.phase = .accept → s.truRes = none) ∧
    (s.tru.phase = .done → ∃ r, s.truRes = some r ∧ r.err = s.tru.err ∧ r.ndig = s.tru.ndig ∧
      r.code = s.tru.code.toList.take s.tru.ndig.toNat) ∧
    (∀ j : Fin 10, s.tru.codeStr.extractLsb' (72 - 8 * j.val) 8 = s.tru.code[j])

/-- R128: TRU.TAKE completes in phase DONE: the host receives the record and every register of the TRU is cleared; nothing else
changes. Only `tru_res.ready = 1` encodes it. -/
def Obligations.TruTakeHandsOverAndClears : Prop :=
  (∀ (ws : List Byte) (w : BeatWord), decode ws w = .ok .truTake ↔ w = .truReady 1) ∧
  ∀ s : State, s.tru.phase = .done →
    ∃ t r, exec .truTake s = .next t ∧ s.truRes = some r ∧
      t.tru.phase = .accept ∧ t.tru.err = 0 ∧ t.tru.ndig = 0 ∧ (∀ j : Fin 10, t.tru.code[j] = 0) ∧
      t.b32 = s.b32 ∧ t.cfg = s.cfg ∧
      t.host = { s.host with truTaken := s.host.truTaken ++ [r] }

/-- The frame of every TRU instruction: B32D, the parameters and the host's end but for the records taken stay; a request hands
nothing over. -/
def Obligations.TruncatorFrame : Prop :=
  ∀ (i : Instr) (s t : State), onTru i = true → exec i s = .next t →
    t.b32 = s.b32 ∧ t.cfg = s.cfg ∧ t.host = { s.host with truTaken := t.host.truTaken } ∧
    (∀ digits digest, i = .truReq digits digest → t.host = s.host)

/-- R204 with R121 and R128: on the channels, a request with a legal digit count and its TAKE are exactly two steps, after which the
TRU is idle, the host holds the code, and the request is neither open nor owed (log entries 1 and 23). -/
def Obligations.TruTransactionTakesTwoSteps : Prop :=
  ∀ (s : State) (digits : BitVec 4) (digest : Digest) (words : List TReq164) (turns : List Turn),
    s.tru = Tru.idle → 1 ≤ digits.toNat → digits.toNat ≤ 10 →
    s.host.truReq = reqWord digits digest :: words →
    s.host.turns = turnOn .truReq :: turnOn .truRes :: turns →
    Host.Core.run Sys2Proof.core 2 s =
      .next { s with
        host := { s.host with
          truReq := words
          turns := turns
          truTaken := s.host.truTaken ++
            [{ err := 0, ndig := digits, code := trunc digest digits.toNat }]
          reqOpen := none
          reqOwed := s.host.reqOwed.erase (reqWord digits digest) } }

/-! ## The host's side -/

/-- R141: the counter, its faults and their order. -/
def Obligations.CounterRule : Prop :=
  ∀ epoch step : Int,
    (step ≤ 0 → hotpCounter epoch step = .error .invalidStep) ∧
    (0 < step → epoch < 0 → hotpCounter epoch step = .error .counterOverflow) ∧
    (0 < step → 0 ≤ epoch → 2 ^ 64 ≤ epoch / step → hotpCounter epoch step = .error .counterOverflow) ∧
    (0 < step → 0 ≤ epoch → epoch / step < 2 ^ 64 →
      ∃ c, hotpCounter epoch step = .ok c ∧ (c.toNat : Int) = epoch / step)

/-- R142: the message is the counter in 8 bytes, most significant first. -/
def Obligations.MessageIsBigEndianCounter : Prop :=
  ∀ c : BitVec 64, (hotpMessage c).length = 8 ∧ bigEndian (hotpMessage c) = c.toNat

/-- R146: `generate` fails exactly when some fault's condition holds, and then reports one of those. -/
def Obligations.GenerateFailsExactlyWhenAFaultApplies : Prop :=
  ∀ (secret : List Byte) (epoch step digits : Int),
    (generateFaults secret epoch step digits = [] → ∃ code, generate secret epoch step digits = .ok code) ∧
    (generateFaults secret epoch step digits ≠ [] →
      ∃ f ∈ generateFaults secret epoch step digits, generate secret epoch step digits = .error f)

/-- R148: `generate` depends on the time only through the window it lies in. -/
def Obligations.GenerateDependsOnWindowOnly : Prop :=
  ∀ (secret : List Byte) (t1 t2 step digits : Int), t1 / step = t2 / step →
    generate secret t1 step digits = generate secret t2 step digits

/-- R149 and R150: a batch has `count` contiguous windows from the start of the current one, each with the code of its time, and
depends on `now` only through its window. -/
def Obligations.BatchIsContiguousAndAnchored : Prop :=
  ∀ (secret : List Byte) (now : Int) (count : Nat) (step digits : Int),
    (∀ ws, generateBatch secret now count step digits = .ok ws →
      ws.length = count ∧
      ∀ (i : Nat) (w : CodeWindow), ws[i]? = some w →
        w.startEpochSeconds = (now / step * step + i * step) * 1000 ∧
        generate secret (now + i * step) step digits = .ok w.code) ∧
    (∀ now' : Int, now / step = now' / step →
      generateBatch secret now count step digits = generateBatch secret now' count step digits)

/-- R152: a batch is all or nothing; the fault is that of the lowest failing window, and no window is asked for with `count = 0`;
a negative `now` fails at window 0. -/
def Obligations.BatchIsAllOrNothing : Prop :=
  ∀ (secret : List Byte) (now : Int) (count : Nat) (step digits : Int),
    (step ≤ 0 → generateBatch secret now count step digits = .error .invalidStep) ∧
    (0 < step → generateBatch secret now 0 step digits = .ok []) ∧
    (0 < step → now < 0 → 0 < count → generateBatch secret now count step digits = .error .counterOverflow) ∧
    (0 < step → ∀ f, generateBatch secret now count step digits = .error f ↔
      ∃ i : Nat, i < count ∧ generate secret (now / step * step + i * step) step digits = .error f ∧
        ∀ j : Nat, j < i → ∃ code, generate secret (now / step * step + j * step) step digits = .ok code)

/-- R145: with an accepted string, `EmptySecret` is due exactly when it has one alphabet character; `WS_SET` holds no
letter (log entry 21). -/
def Obligations.EmptySecretIsOneSymbol : Prop :=
  ∀ (ws s bytes : List Byte), letterFree ws = true → decodeString ws s = .ok bytes →
    (bytes = [] ↔ s.countP (fun c => isAlpha ws c) = 1)

/-- R147 and R153: the session on the block, from idle units and with an unbounded buffer, yields exactly the codes that
`generate(decode(s), ...)` yields, and leaves both units idle. `WS_SET` holds no letter (log entry 21), and codes
are compared, not which fault is reported (log entry 19). -/
def Obligations.SessionYieldsGeneratedCode : Prop :=
  ∀ (s : State) (str : List Byte) (epoch step digits : Int), s.b32 = B32.idle → s.tru = Tru.idle →
    s.cfg.secretMax = none → letterFree s.cfg.wsSet = true →
    (∀ code, generateFromString s.cfg.wsSet str epoch step digits = .ok code ↔
      ∃ t, hostSession s str epoch step digits = .ok (code, t)) ∧
    (∀ code t, hostSession s str epoch step digits = .ok (code, t) →
      t.b32 = B32.idle ∧ t.tru = Tru.idle)

/-! ## Fairness -/

/-- R204 (b), weak fairness: in every run, a word that waits on a channel while its unit stays in ACCEPT is accepted, after at most
as many steps as turns are left (for `tru_req`, and as many as `sym_in` words wait). That waiting words move once no turn is left is
the model's form of fairness (log entries 1 and 13). -/
def Obligations.WaitingWordIsAccepted : Prop :=
  ∀ (run : Nat → State), (∀ n, step (run n) = .next (run (n + 1))) → ∀ n,
    (∀ (w : Sym9) (ws : List Sym9), (run n).host.symIn = w :: ws →
      ∃ m, n ≤ m ∧ m ≤ n + (run n).host.turns.length ∧
        ((run m).b32.phase = .done ∨
          ∃ i t, decode (run m).cfg.wsSet (.symIn w) = .ok i ∧ (run m).nextBeat = some (i, t) ∧
            (run m).host.symIn = w :: ws ∧ (run (m + 1)).host.symIn = ws)) ∧
    (∀ (q : TReq164) (qs : List TReq164), (run n).host.truReq = q :: qs →
      ∃ m, n ≤ m ∧ m ≤ n + (run n).host.turns.length + (run n).host.symIn.length ∧
        ((run m).tru.phase = .done ∨
          ∃ i t, decode (run m).cfg.wsSet (.truReq q) = .ok i ∧ (run m).nextBeat = some (i, t) ∧
            (run m).host.truReq = q :: qs ∧ (run (m + 1)).host.truReq = qs))
end

