-- ==== Sys2Proof/Laws/Encoding.lean ====
section
/-! SUPPORT. What the LUT and the decoder answer on a character (spec/30_encoding.md R61 to R66). -/

namespace Sys2Proof

/-- Every character code is listed. -/
theorem mem_allCodes (c : Byte) : c ∈ allCodes :=
  List.mem_map.mpr ⟨c.toNat, List.mem_range.mpr c.isLt, by simp⟩

/-- The codes of class ws are those of `WS_SET` (R65). -/
theorem lut_eq_ws (ws : List Byte) (c : Byte) : lut ws c = .ws ↔ c ∈ ws := by
  unfold lut alphaClass
  split
  · simp [*]
  · simp only [*, iff_false]
    split
    · simp
    · split
      · simp
      · split <;> simp

/-- The only code of class pad is `=`, unless `WS_SET` holds it (R66). -/
theorem lut_eq_pad (ws : List Byte) (c : Byte) : lut ws c = .pad ↔ c ∉ ws ∧ c = padChar := by
  unfold lut alphaClass
  split
  · simp [*]
  · split
    · simp_all
    · simp only [*, and_false, iff_false]
      split
      · simp
      · split <;> simp

/-- A character's word has `end = 0` and holds the character (R61). -/
theorem symWord_fields (c : Byte) : symEnd (symWord c) = false ∧ symChar (symWord c) = c := by
  revert c; decide

/-- A character's word decodes to the instruction of its class (R62). -/
theorem decode_symWord (ws : List Byte) (c : Byte) :
    decode ws (.symIn (symWord c)) = .ok (instrOfClass (lut ws c)) := by
  simp [decode, decodeSym, symWord_fields]

/-- A request's word decodes to the request (R70). -/
theorem decode_reqWord (ws : List Byte) (digits : BitVec 4) (digest : Digest) :
    decode ws (.truReq (reqWord digits digest)) = .ok (.truReq digits digest) := by
  simp only [decode, decodeReq, reqWord]
  congr 2
  · exact BitVec.extractLsb'_append_eq_left
  · exact BitVec.extractLsb'_append_eq_right

end Sys2Proof
end

