-- ==== Sys2Proof/Laws/State.lean ====
section
/-! SUPPORT. One lemma per field and update of the state. -/

namespace Sys2Proof.Machine

@[simp] theorem State.setB32_cfg (s : State) (b : B32) : (s.setB32 b).cfg = s.cfg := rfl
@[simp] theorem State.setB32_b32 (s : State) (b : B32) : (s.setB32 b).b32 = b := rfl
@[simp] theorem State.setB32_tru (s : State) (b : B32) : (s.setB32 b).tru = s.tru := rfl
@[simp] theorem State.setB32_host (s : State) (b : B32) : (s.setB32 b).host = s.host := rfl

@[simp] theorem State.setTru_cfg (s : State) (t : Tru) : (s.setTru t).cfg = s.cfg := rfl
@[simp] theorem State.setTru_b32 (s : State) (t : Tru) : (s.setTru t).b32 = s.b32 := rfl
@[simp] theorem State.setTru_tru (s : State) (t : Tru) : (s.setTru t).tru = t := rfl
@[simp] theorem State.setTru_host (s : State) (t : Tru) : (s.setTru t).host = s.host := rfl

@[simp] theorem State.setHost_cfg (s : State) (h : HostEnd) : (s.setHost h).cfg = s.cfg := rfl
@[simp] theorem State.setHost_b32 (s : State) (h : HostEnd) : (s.setHost h).b32 = s.b32 := rfl
@[simp] theorem State.setHost_tru (s : State) (h : HostEnd) : (s.setHost h).tru = s.tru := rfl
@[simp] theorem State.setHost_host (s : State) (h : HostEnd) : (s.setHost h).host = h := rfl

/-- Two updates of different units commute. -/
theorem State.setB32_setTru (s : State) (b : B32) (t : Tru) :
    (s.setB32 b).setTru t = (s.setTru t).setB32 b := rfl

/-- Writing back what is there changes nothing. -/
@[simp] theorem State.setB32_self (s : State) : s.setB32 s.b32 = s := rfl

@[simp] theorem HostEnd.receiveB32_symIn (h : HostEnd) (r : B32Res) :
    (h.receiveB32 r).symIn = h.symIn := rfl
@[simp] theorem HostEnd.receiveB32_truReq (h : HostEnd) (r : B32Res) :
    (h.receiveB32 r).truReq = h.truReq := rfl
@[simp] theorem HostEnd.receiveB32_turns (h : HostEnd) (r : B32Res) :
    (h.receiveB32 r).turns = h.turns := rfl
@[simp] theorem HostEnd.receiveB32_b32Taken (h : HostEnd) (r : B32Res) :
    (h.receiveB32 r).b32Taken = h.b32Taken ++ [r] := rfl
@[simp] theorem HostEnd.receiveB32_truTaken (h : HostEnd) (r : B32Res) :
    (h.receiveB32 r).truTaken = h.truTaken := rfl
@[simp] theorem HostEnd.receiveB32_symOpen (h : HostEnd) (r : B32Res) :
    (h.receiveB32 r).symOpen = h.symOpen := rfl
@[simp] theorem HostEnd.receiveB32_symOwed (h : HostEnd) (r : B32Res) :
    (h.receiveB32 r).symOwed = h.symOwed := rfl
@[simp] theorem HostEnd.receiveB32_reqOpen (h : HostEnd) (r : B32Res) :
    (h.receiveB32 r).reqOpen = h.reqOpen := rfl
@[simp] theorem HostEnd.receiveB32_reqOwed (h : HostEnd) (r : B32Res) :
    (h.receiveB32 r).reqOwed = h.reqOwed := rfl

@[simp] theorem HostEnd.receiveTru_symIn (h : HostEnd) (r : TruRes) :
    (h.receiveTru r).symIn = h.symIn := rfl
@[simp] theorem HostEnd.receiveTru_truReq (h : HostEnd) (r : TruRes) :
    (h.receiveTru r).truReq = h.truReq := rfl
@[simp] theorem HostEnd.receiveTru_turns (h : HostEnd) (r : TruRes) :
    (h.receiveTru r).turns = h.turns := rfl
@[simp] theorem HostEnd.receiveTru_b32Taken (h : HostEnd) (r : TruRes) :
    (h.receiveTru r).b32Taken = h.b32Taken := rfl
@[simp] theorem HostEnd.receiveTru_truTaken (h : HostEnd) (r : TruRes) :
    (h.receiveTru r).truTaken = h.truTaken ++ [r] := rfl
@[simp] theorem HostEnd.receiveTru_symOpen (h : HostEnd) (r : TruRes) :
    (h.receiveTru r).symOpen = h.symOpen := rfl
@[simp] theorem HostEnd.receiveTru_symOwed (h : HostEnd) (r : TruRes) :
    (h.receiveTru r).symOwed = h.symOwed := rfl
@[simp] theorem HostEnd.receiveTru_reqOpen (h : HostEnd) (r : TruRes) :
    (h.receiveTru r).reqOpen = h.reqOpen := rfl
@[simp] theorem HostEnd.receiveTru_reqOwed (h : HostEnd) (r : TruRes) :
    (h.receiveTru r).reqOwed = h.reqOwed := rfl

@[simp] theorem HostEnd.spendTurn_symIn (h : HostEnd) :
    h.spendTurn.symIn = h.symIn := rfl
@[simp] theorem HostEnd.spendTurn_truReq (h : HostEnd) :
    h.spendTurn.truReq = h.truReq := rfl
@[simp] theorem HostEnd.spendTurn_turns (h : HostEnd) :
    h.spendTurn.turns = h.turns.tail := rfl
@[simp] theorem HostEnd.spendTurn_b32Taken (h : HostEnd) :
    h.spendTurn.b32Taken = h.b32Taken := rfl
@[simp] theorem HostEnd.spendTurn_truTaken (h : HostEnd) :
    h.spendTurn.truTaken = h.truTaken := rfl
@[simp] theorem HostEnd.spendTurn_symOpen (h : HostEnd) :
    h.spendTurn.symOpen = h.symOpen := rfl
@[simp] theorem HostEnd.spendTurn_symOwed (h : HostEnd) :
    h.spendTurn.symOwed = h.symOwed := rfl
@[simp] theorem HostEnd.spendTurn_reqOpen (h : HostEnd) :
    h.spendTurn.reqOpen = h.reqOpen := rfl
@[simp] theorem HostEnd.spendTurn_reqOwed (h : HostEnd) :
    h.spendTurn.reqOwed = h.reqOwed := rfl

@[simp] theorem HostEnd.acceptSym_symIn (h : HostEnd) (w : Sym9) :
    (h.acceptSym w).symIn = h.symIn.tail := rfl
@[simp] theorem HostEnd.acceptSym_truReq (h : HostEnd) (w : Sym9) :
    (h.acceptSym w).truReq = h.truReq := rfl
@[simp] theorem HostEnd.acceptSym_turns (h : HostEnd) (w : Sym9) :
    (h.acceptSym w).turns = h.turns := rfl
@[simp] theorem HostEnd.acceptSym_b32Taken (h : HostEnd) (w : Sym9) :
    (h.acceptSym w).b32Taken = h.b32Taken := rfl
@[simp] theorem HostEnd.acceptSym_truTaken (h : HostEnd) (w : Sym9) :
    (h.acceptSym w).truTaken = h.truTaken := rfl
@[simp] theorem HostEnd.acceptSym_symOpen (h : HostEnd) (w : Sym9) :
    (h.acceptSym w).symOpen = h.symOpen ++ [stringItem w] := rfl
@[simp] theorem HostEnd.acceptSym_symOwed (h : HostEnd) (w : Sym9) :
    (h.acceptSym w).symOwed = h.symOwed := rfl
@[simp] theorem HostEnd.acceptSym_reqOpen (h : HostEnd) (w : Sym9) :
    (h.acceptSym w).reqOpen = h.reqOpen := rfl
@[simp] theorem HostEnd.acceptSym_reqOwed (h : HostEnd) (w : Sym9) :
    (h.acceptSym w).reqOwed = h.reqOwed := rfl

@[simp] theorem HostEnd.acceptReq_symIn (h : HostEnd) (q : TReq164) :
    (h.acceptReq q).symIn = h.symIn := rfl
@[simp] theorem HostEnd.acceptReq_truReq (h : HostEnd) (q : TReq164) :
    (h.acceptReq q).truReq = h.truReq.tail := rfl
@[simp] theorem HostEnd.acceptReq_turns (h : HostEnd) (q : TReq164) :
    (h.acceptReq q).turns = h.turns := rfl
@[simp] theorem HostEnd.acceptReq_b32Taken (h : HostEnd) (q : TReq164) :
    (h.acceptReq q).b32Taken = h.b32Taken := rfl
@[simp] theorem HostEnd.acceptReq_truTaken (h : HostEnd) (q : TReq164) :
    (h.acceptReq q).truTaken = h.truTaken := rfl
@[simp] theorem HostEnd.acceptReq_symOpen (h : HostEnd) (q : TReq164) :
    (h.acceptReq q).symOpen = h.symOpen := rfl
@[simp] theorem HostEnd.acceptReq_symOwed (h : HostEnd) (q : TReq164) :
    (h.acceptReq q).symOwed = h.symOwed := rfl
@[simp] theorem HostEnd.acceptReq_reqOpen (h : HostEnd) (q : TReq164) :
    (h.acceptReq q).reqOpen = some q := rfl
@[simp] theorem HostEnd.acceptReq_reqOwed (h : HostEnd) (q : TReq164) :
    (h.acceptReq q).reqOwed = h.reqOwed := rfl

@[simp] theorem HostEnd.closeString_symIn (h : HostEnd) :
    h.closeString.symIn = h.symIn := rfl
@[simp] theorem HostEnd.closeString_truReq (h : HostEnd) :
    h.closeString.truReq = h.truReq := rfl
@[simp] theorem HostEnd.closeString_turns (h : HostEnd) :
    h.closeString.turns = h.turns := rfl
@[simp] theorem HostEnd.closeString_b32Taken (h : HostEnd) :
    h.closeString.b32Taken = h.b32Taken := rfl
@[simp] theorem HostEnd.closeString_truTaken (h : HostEnd) :
    h.closeString.truTaken = h.truTaken := rfl
@[simp] theorem HostEnd.closeString_symOpen (h : HostEnd) :
    h.closeString.symOpen = [] := rfl
@[simp] theorem HostEnd.closeString_symOwed (h : HostEnd) :
    h.closeString.symOwed = settleString h.symOwed h.symOpen := rfl
@[simp] theorem HostEnd.closeString_reqOpen (h : HostEnd) :
    h.closeString.reqOpen = h.reqOpen := rfl
@[simp] theorem HostEnd.closeString_reqOwed (h : HostEnd) :
    h.closeString.reqOwed = h.reqOwed := rfl

@[simp] theorem HostEnd.closeRequest_symIn (h : HostEnd) :
    h.closeRequest.symIn = h.symIn := rfl
@[simp] theorem HostEnd.closeRequest_truReq (h : HostEnd) :
    h.closeRequest.truReq = h.truReq := rfl
@[simp] theorem HostEnd.closeRequest_turns (h : HostEnd) :
    h.closeRequest.turns = h.turns := rfl
@[simp] theorem HostEnd.closeRequest_b32Taken (h : HostEnd) :
    h.closeRequest.b32Taken = h.b32Taken := rfl
@[simp] theorem HostEnd.closeRequest_truTaken (h : HostEnd) :
    h.closeRequest.truTaken = h.truTaken := rfl
@[simp] theorem HostEnd.closeRequest_symOpen (h : HostEnd) :
    h.closeRequest.symOpen = h.symOpen := rfl
@[simp] theorem HostEnd.closeRequest_symOwed (h : HostEnd) :
    h.closeRequest.symOwed = h.symOwed := rfl
@[simp] theorem HostEnd.closeRequest_reqOpen (h : HostEnd) :
    h.closeRequest.reqOpen = none := rfl

@[simp] theorem HostEnd.abandon_symIn (h : HostEnd) :
    h.abandon.symIn = h.symIn := rfl
@[simp] theorem HostEnd.abandon_truReq (h : HostEnd) :
    h.abandon.truReq = h.truReq := rfl
@[simp] theorem HostEnd.abandon_turns (h : HostEnd) :
    h.abandon.turns = h.turns := rfl
@[simp] theorem HostEnd.abandon_b32Taken (h : HostEnd) :
    h.abandon.b32Taken = h.b32Taken := rfl
@[simp] theorem HostEnd.abandon_truTaken (h : HostEnd) :
    h.abandon.truTaken = h.truTaken := rfl
@[simp] theorem HostEnd.abandon_symOpen (h : HostEnd) :
    h.abandon.symOpen = [] := rfl
@[simp] theorem HostEnd.abandon_symOwed (h : HostEnd) :
    h.abandon.symOwed = if h.symOpen.isEmpty then h.symOwed else oweString h.symOwed h.symOpen := rfl
@[simp] theorem HostEnd.abandon_reqOpen (h : HostEnd) :
    h.abandon.reqOpen = none := rfl
@[simp] theorem HostEnd.abandon_reqOwed (h : HostEnd) :
    h.abandon.reqOwed = match h.reqOpen with
      | none => h.reqOwed
      | some q => oweRequest h.reqOwed q := rfl

@[simp] theorem HostEnd.accepted_b32Taken (h : HostEnd) (w : BeatWord) :
    (h.accepted w).b32Taken = h.b32Taken := by cases w <;> rfl
@[simp] theorem HostEnd.accepted_truTaken (h : HostEnd) (w : BeatWord) :
    (h.accepted w).truTaken = h.truTaken := by cases w <;> rfl
@[simp] theorem HostEnd.accepted_turns (h : HostEnd) (w : BeatWord) :
    (h.accepted w).turns = h.turns.tail := by cases w <;> rfl

@[simp] theorem B32.raise_buf (f : FaultName) (b : B32) : (b.raise f).buf = b.buf := rfl
@[simp] theorem B32.raise_err (f : FaultName) (b : B32) : (b.raise f).err = f.code := rfl
@[simp] theorem B32.raise_phase (f : FaultName) (b : B32) : (b.raise f).phase = b.phase := rfl
@[simp] theorem B32.raise_acc (f : FaultName) (b : B32) : (b.raise f).acc = b.acc := rfl
@[simp] theorem B32.raise_nbits (f : FaultName) (b : B32) : (b.raise f).nbits = b.nbits := rfl
@[simp] theorem B32.raise_padSeen (f : FaultName) (b : B32) : (b.raise f).padSeen = b.padSeen := rfl
@[simp] theorem B32.raise_nonempty (f : FaultName) (b : B32) : (b.raise f).nonempty = b.nonempty := rfl

/-- `clean` says that no code is recorded. -/
@[simp] theorem B32.clean_iff (b : B32) : b.clean = true ↔ b.err = 0 := by simp [B32.clean]

end Sys2Proof.Machine
end

