-- ==== Sys2Proof/Laws/Ops.lean ====
section
/-! SUPPORT. What each shared operation can do, said once. -/

namespace Sys2Proof.Machine

/-! ## Fault codes -/

/-- A code names the fault whose code it is. -/
theorem faultOfCode_code (f : FaultName) : faultOfCode f.code = some f := by
  cases f <;> rfl

/-- Only code 0 names no fault. -/
theorem faultOfCode_none (c : ErrCode) : faultOfCode c = none ↔ c = 0 := by
  revert c; decide

/-! ## Operand values as numbers -/

/-- The shifted accumulator is `32 acc + idx`. -/
theorem shiftedAcc_toNat (acc : BitVec 7) (idx : BitVec 5) :
    (shiftedAcc acc idx).toNat = acc.toNat * 32 + idx.toNat := by
  revert acc idx; decide

/-- The byte cut off the top, as a number. -/
theorem topByte_toNat (t : BitVec 12) (n : Nat) :
    (topByte t n).toNat = t.toNat / 2 ^ (n - 8) % 256 := by
  simp [topByte, BitVec.extractLsb'_toNat, Nat.shiftRight_eq_div_pow]

/-- The bits left below a cut byte, as a number. -/
theorem restBits_toNat (t : BitVec 12) (n : Nat) (h : n ≤ 12) :
    (restBits t n).toNat = t.toNat % 2 ^ (n - 8) := by
  have hp : 2 ^ (n - 8) ≤ 2 ^ 4 := Nat.pow_le_pow_right (by decide) (by omega)
  have : t.toNat % 2 ^ (n - 8) < 2 ^ (n - 8) := Nat.mod_lt _ (Nat.two_pow_pos _)
  simp only [restBits, BitVec.toNat_ofNat]
  exact Nat.mod_eq_of_lt (by omega)

/-- One byte of the digest, as a number. -/
theorem digestByte_toNat (d : Digest) (i : Nat) :
    (digestByte d i).toNat = d.toNat / 2 ^ (152 - 8 * i) % 256 := by
  simp [digestByte, BitVec.extractLsb'_toNat, Nat.shiftRight_eq_div_pow]

/-- The offset is the low nibble of the last byte. -/
theorem truncOffset_eq (d : Digest) : truncOffset d = (digestByte d 19).toNat % 16 := by
  have h : ∀ b : Byte, (b &&& 0x0F).toNat = b.toNat % 16 := by decide
  exact h _

/-- The 31-bit value, as a number. -/
theorem binValue_toNat (d : Digest) :
    (binValue d).toNat =
      (digestByte d (truncOffset d)).toNat % 128 * 2 ^ 24 +
      (digestByte d (truncOffset d + 1)).toNat * 2 ^ 16 +
      (digestByte d (truncOffset d + 2)).toNat * 2 ^ 8 + (digestByte d (truncOffset d + 3)).toNat := by
  have h1 := (digestByte d (truncOffset d + 1)).isLt
  have h2 := (digestByte d (truncOffset d + 2)).isLt
  have h3 := (digestByte d (truncOffset d + 3)).isLt
  simp only [binValue, BitVec.toNat_append, BitVec.extractLsb'_toNat, Nat.shiftRight_zero]
  rw [← Nat.shiftLeft_add_eq_or_of_lt h1, ← Nat.shiftLeft_add_eq_or_of_lt h2,
    ← Nat.shiftLeft_add_eq_or_of_lt h3]
  simp only [Nat.shiftLeft_eq]
  omega

/-- `tru.code` holds the characters, then zeros. -/
theorem codeOf_getElem (chars : List Byte) (j : Fin 10) : (codeOf chars)[j] = chars.getD j.val 0 := by
  simp [codeOf]

/-- A digit character, as a number. -/
theorem decimalChar_toNat (v digits j : Nat) :
    (decimalChar v digits j).toNat = 0x30 + v / 10 ^ (digits - 1 - j) % 10 := by
  have h : v / 10 ^ (digits - 1 - j) % 10 < 10 := Nat.mod_lt _ (by decide)
  simp only [decimalChar, digitChar]
  generalize v / 10 ^ (digits - 1 - j) % 10 = r at h ⊢
  simp only [BitVec.toNat_add, BitVec.toNat_ofNat, show (0x30 : Byte).toNat = 0x30 from rfl]
  omega

/-! ## The steps of B32D -/

/-- A `sym_in` beat in phase ACCEPT. -/
theorem State.symBeat_accept (f : B32 → B32) (s : State) (h : s.b32.phase = .accept) :
    s.symBeat f = s.setB32 (f s.b32) := by
  simp [State.symBeat, h]

/-- A `sym_in` beat in phase DONE changes nothing (R99). -/
theorem State.symBeat_done (f : B32 → B32) (s : State) (h : s.b32.phase = .done) : s.symBeat f = s := by
  simp [State.symBeat, h]

@[simp] theorem State.symBeat_cfg (f : B32 → B32) (s : State) : (s.symBeat f).cfg = s.cfg := by
  unfold State.symBeat; split <;> rfl
@[simp] theorem State.symBeat_tru (f : B32 → B32) (s : State) : (s.symBeat f).tru = s.tru := by
  unfold State.symBeat; split <;> rfl
@[simp] theorem State.symBeat_host (f : B32 → B32) (s : State) : (s.symBeat f).host = s.host := by
  unfold State.symBeat; split <;> rfl

/-- What a symbol does to B32D: nothing once a fault is recorded, else its body. -/
theorem B32.unlessFaulted_cases (f : B32 → B32) (b : B32) :
    (b.err ≠ 0 ∧ b.unlessFaulted f = b) ∨ (b.err = 0 ∧ b.unlessFaulted f = f b) := by
  cases h : b.clean with
  | true => exact .inr ⟨b.clean_iff.mp h, by simp only [B32.unlessFaulted, h, if_true]⟩
  | false => exact .inl ⟨fun e => by simp [b.clean_iff.mpr e] at h, by simp [B32.unlessFaulted, h]⟩

/-- What the body of SYM.ALPHA can do (R92). -/
theorem B32.push_cases (secretMax : Option Nat) (idx : BitVec 5) (b : B32) :
    (b.padSeen = true ∧ b.push secretMax idx = b.raise .invalidSecretFormat) ∨
    (b.padSeen = false ∧ b.nbits.toNat < 3 ∧ b.push secretMax idx = b.load idx) ∨
    (b.padSeen = false ∧ 3 ≤ b.nbits.toNat ∧ secretMax = some b.buf.length ∧
      b.push secretMax idx = b.raise .secretTooLong) ∨
    (b.padSeen = false ∧ 3 ≤ b.nbits.toNat ∧ secretMax ≠ some b.buf.length ∧
      b.push secretMax idx = b.emit idx) := by
  cases hp : b.padSeen with
  | true => exact .inl ⟨rfl, by simp [B32.push, hp]⟩
  | false =>
    by_cases hn : b.nbits.toNat < 3
    · exact .inr (.inl ⟨rfl, hn, by simp [B32.push, hp, bitsAfterPush, show b.nbits.toNat + 5 < 8 by omega]⟩)
    · by_cases hf : secretMax = some b.buf.length
      · refine .inr (.inr (.inl ⟨rfl, by omega, hf, ?_⟩))
        simp [B32.push, hp, bitsAfterPush, B32.full, hf, show ¬ b.nbits.toNat + 5 < 8 by omega]
      · refine .inr (.inr (.inr ⟨rfl, by omega, hf, ?_⟩))
        simp [B32.push, hp, bitsAfterPush, B32.full, hf, show ¬ b.nbits.toNat + 5 < 8 by omega]

/-- The registers after five bits are kept pending. -/
theorem B32.load_toNat (idx : BitVec 5) (b : B32) (h : b.nbits.toNat < 3) :
    (b.load idx).acc.toNat = (b.acc.toNat * 32 + idx.toNat) % 128 ∧
    (b.load idx).nbits.toNat = b.nbits.toNat + 5 := by
  refine ⟨?_, ?_⟩
  · simp [B32.load, shiftedAcc_toNat]
  · simp only [B32.load, bitsAfterPush, BitVec.toNat_ofNat]; omega

/-- The registers after a byte is cut off. -/
theorem B32.emit_toNat (idx : BitVec 5) (b : B32) (h : 3 ≤ b.nbits.toNat) :
    (b.emit idx).acc.toNat = (b.acc.toNat * 32 + idx.toNat) % 2 ^ (b.nbits.toNat - 3) ∧
    (b.emit idx).nbits.toNat = b.nbits.toNat - 3 ∧
    ∃ x : Byte, x.toNat = (b.acc.toNat * 32 + idx.toNat) / 2 ^ (b.nbits.toNat - 3) % 256 ∧
      (b.emit idx).buf = b.buf ++ [x] := by
  have hb := b.nbits.isLt
  have e : bitsAfterPush b.nbits - 8 = b.nbits.toNat - 3 := by simp only [bitsAfterPush]; omega
  refine ⟨?_, ?_, topByte (shiftedAcc b.acc idx) (bitsAfterPush b.nbits), ?_, rfl⟩
  · have := restBits_toNat (shiftedAcc b.acc idx) (bitsAfterPush b.nbits) (by simp only [bitsAfterPush]; omega)
    rw [shiftedAcc_toNat, e] at this
    exact this
  · simp only [B32.emit, e, BitVec.toNat_ofNat]; omega
  · rw [topByte_toNat, shiftedAcc_toNat, e]

/-- END moves to DONE and records a fault only for a string without an alphabet character (R96). -/
theorem B32.close_eq (b : B32) :
    b.close = { b with phase := .done, err := if b.err = 0 ∧ b.nonempty = false then 1 else b.err } := by
  by_cases h : b.err = 0#3 <;> cases hn : b.nonempty <;>
    simp [B32.close, B32.endsEmpty, B32.clean, B32.raise, FaultName.code, h, hn]

/-! ## Steps -/

/-- With a turn left, its word is presented. -/
theorem State.presented_turn (s : State) (turn : Turn) (rest : List Turn) (h : s.host.turns = turn :: rest) :
    s.presented = s.host.wordOf turn := by
  simp [State.presented, h]

/-- With no turn left, a ripe word is presented. -/
theorem State.presented_no_turn (s : State) (h : s.host.turns = []) : s.presented = s.ripeWord := by
  simp [State.presented, h]

/-- Everything a ripe word can be: the next `sym_in` word where B32D accepts it, else the next `tru_req` word where the TRU does,
else none. -/
theorem State.ripeWord_cases (s : State) :
    (∃ w ws, s.host.symIn = w :: ws ∧ s.b32.phase = .accept ∧ s.ripeWord = some (.symIn w)) ∨
    ((s.host.symIn = [] ∨ s.b32.phase = .done) ∧
      ∃ q qs, s.host.truReq = q :: qs ∧ s.tru.phase = .accept ∧ s.ripeWord = some (.truReq q)) ∨
    ((s.host.symIn = [] ∨ s.b32.phase = .done) ∧ (s.host.truReq = [] ∨ s.tru.phase = .done) ∧
      s.ripeWord = none) := by
  unfold State.ripeWord State.symInReady State.truReqReady
  cases hb : s.b32.phase <;> cases hy : s.host.symIn <;> cases ht : s.tru.phase <;>
    cases hq : s.host.truReq <;> simp

/-! ## The host's books -/

/-- A character's word contributes the character. -/
@[simp] theorem stringItem_symWord (c : Byte) : stringItem (symWord c) = .char c := by
  simp [stringItem, symWord_fields c]

/-- The END word contributes END. -/
@[simp] theorem stringItem_endWord : stringItem endWord = .close := by decide

/-- Every END word contributes the same (R68, U2). -/
theorem stringItem_of_end (w : Sym9) (h : symEnd w = true) : stringItem w = .close := if_pos h

/-- Exactly the END words close a string. -/
theorem stringItem_eq_close (w : Sym9) : stringItem w = .close ↔ symEnd w = true := by
  unfold stringItem; split <;> simp [*]

/-- An owed string that starts with what is abandoned is the abandoned one: nothing is added. -/
theorem oweString_of_prefix (owed : List (List StringItem)) (items p : List StringItem) (hp : p ∈ owed) (hw : items <+: p) :
    oweString owed items = owed :=
  if_pos (List.any_eq_true.mpr ⟨p, hp, List.isPrefixOf_iff_prefix.mpr hw⟩)

/-- Abandoning the same string again changes nothing. -/
theorem oweString_again (owed : List (List StringItem)) (items : List StringItem) :
    oweString (oweString owed items) items = oweString owed items := by
  by_cases h : ∃ p ∈ owed, items <+: p
  · obtain ⟨p, hp, hw⟩ := h
    rw [oweString_of_prefix owed items p hp hw, oweString_of_prefix owed items p hp hw]
  · refine oweString_of_prefix _ _ items ?_ List.prefix_rfl
    rw [oweString, if_neg (by simpa using h)]
    simp

/-- Erasing by two tests that agree on the list is the same. -/
theorem eraseP_congr {α : Type} (p q : α → Bool) (l : List α) (h : ∀ a ∈ l, p a = q a) : l.eraseP p = l.eraseP q := by
  induction l with
  | nil => rfl
  | cons a r ih =>
    rw [List.eraseP_cons, List.eraseP_cons, h a List.mem_cons_self, ih fun b hb => h b (List.mem_cons_of_mem a hb)]

/-- The test of `settleString`: the longest owed string that `items` starts with. -/
theorem settleString_test (owed : List (List StringItem)) (items p : List StringItem) :
    (p.isPrefixOf items && owed.all fun q => !q.isPrefixOf items || q.length ≤ p.length) = true ↔
      p <+: items ∧ ∀ q ∈ owed, q <+: items → q.length ≤ p.length := by
  rw [Bool.and_eq_true, List.isPrefixOf_iff_prefix, List.all_eq_true]
  refine and_congr_right fun _ => forall_congr' fun q => imp_congr_right fun _ => ?_
  rw [Bool.or_eq_true, Bool.not_eq_true', ← Bool.not_eq_true, List.isPrefixOf_iff_prefix, decide_eq_true_iff,
    imp_iff_not_or]

/-- A string that is owed as a whole is the one settled, and no other. -/
theorem settleString_of_mem (owed : List (List StringItem)) (items : List StringItem) (h : items ∈ owed) :
    settleString owed items = owed.erase items := by
  rw [List.erase_eq_eraseP, settleString]
  refine eraseP_congr _ _ _ fun p _ => Bool.eq_iff_iff.mpr ?_
  rw [settleString_test, beq_iff_eq]
  constructor
  · rintro ⟨hp, hl⟩
    exact (hp.eq_of_length_le (hl items h List.prefix_rfl)).symm
  · rintro rfl
    exact ⟨List.prefix_rfl, fun q _ hq => hq.length_le⟩

/-- However often a string is abandoned, taking its result settles all that abandoning it added. -/
theorem settleString_oweString (owed : List (List StringItem)) (items all : List StringItem) (h : items <+: all) :
    settleString (oweString owed items) all = settleString owed all := by
  by_cases he : ∃ p ∈ owed, items <+: p
  · obtain ⟨p, hp, hw⟩ := he
    rw [oweString_of_prefix owed items p hp hw]
  · have shorter : ∀ p ∈ owed, p <+: all → p.length < items.length := fun p hp ha =>
      Nat.lt_of_not_le fun hl => he ⟨p, hp, List.prefix_of_prefix_length_le h ha hl⟩
    have sub : ∀ p ∈ settleString owed items, p ∈ owed := fun p hp => List.mem_of_mem_eraseP hp
    have left : settleString (settleString owed items ++ [items]) all = settleString owed items := by
      rw [settleString, List.eraseP_append_right, List.eraseP_cons_of_pos, List.append_nil]
      · rw [settleString_test]
        refine ⟨h, fun q hq ha => ?_⟩
        rcases List.mem_append.mp hq with hq | hq
        · exact (shorter q (sub q hq) ha).le
        · exact (congrArg List.length (List.mem_singleton.mp hq)).le
      · intro p hp
        rw [settleString_test]
        rintro ⟨ha, hl⟩
        exact absurd (hl items (by simp) h) (Nat.not_le.mpr (shorter p (sub p hp) ha))
    have right : settleString owed all = settleString owed items := by
      have agree : ∀ p ∈ owed, p <+: all ↔ p <+: items := fun p hp =>
        ⟨fun ha => List.prefix_of_prefix_length_le ha h (shorter p hp ha).le, fun hw => hw.trans h⟩
      refine eraseP_congr _ _ _ fun p hp => Bool.eq_iff_iff.mpr ?_
      rw [settleString_test, settleString_test, agree p hp]
      exact and_congr_right fun _ => forall_congr' fun q => forall_congr' fun hq => by rw [agree q hq]
    rw [oweString, if_neg (by simpa using he), left, right]

/-- Abandoning the same request again changes nothing. -/
theorem oweRequest_again (owed : List TReq164) (q : TReq164) : oweRequest (oweRequest owed q) q = oweRequest owed q := by
  unfold oweRequest
  by_cases h : q ∈ owed <;> simp [h]

/-- However often a request is abandoned, taking its result settles all that abandoning it added. -/
theorem erase_oweRequest (owed : List TReq164) (q : TReq164) : (oweRequest owed q).erase q = owed.erase q := by
  unfold oweRequest
  by_cases h : q ∈ owed
  · simp [h]
  · simp [h, List.erase_append_right _ h, List.erase_of_not_mem h]

/-- A step is the instruction of its beat, or a turn in which nothing happens. -/
theorem step_eq (s : State) :
    (s.nextBeat = none ∧ step s = .next s.idleTurn) ∨
    (∃ i t, s.nextBeat = some (i, t) ∧ step s = exec i t) := by
  unfold step
  cases h : s.nextBeat with
  | none => exact .inl ⟨rfl, rfl⟩
  | some p => exact .inr ⟨p.1, p.2, rfl, rfl⟩

/-- A beat comes from a word the host presents, through a handshake, and leaves the block as it was. -/
theorem State.nextBeat_some (s : State) (i : Instr) (t : State) (h : s.nextBeat = some (i, t)) :
    ∃ w, s.presented = some w ∧ s.handshake w = true ∧ decode s.cfg.wsSet w = .ok i ∧
      t = s.setHost (s.host.accepted w) := by
  unfold State.nextBeat at h
  split at h
  · cases h
  · next w hw =>
    split at h
    · next hh =>
      split at h
      · next j hj =>
        cases h
        exact ⟨w, hw, hh, hj, rfl⟩
      · cases h
    · cases h

/-- A presented word whose handshake holds runs its instruction. -/
theorem step_of_beat (s : State) (w : BeatWord) (i : Instr) (hp : s.presented = some w)
    (hh : s.handshake w = true) (hd : decode s.cfg.wsSet w = .ok i) :
    step s = exec i (s.setHost (s.host.accepted w)) := by
  simp [step, State.nextBeat, hp, hh, hd]

/-- A step without a handshake changes the turns only. -/
theorem step_of_no_handshake (s : State) (h : ∀ w, s.presented = some w → s.handshake w = false) :
    step s = .next s.idleTurn := by
  cases hp : s.presented with
  | none => simp [step, State.nextBeat, hp]
  | some w => simp [step, State.nextBeat, hp, h w hp]

end Sys2Proof.Machine
end

