-- ==== Sys2Proof/Laws/PerInstr.lean ====
section
/-! SUPPORT. Statements made for each instruction in turn. -/

namespace Sys2Proof.Laws

/-- Under the default `WS_SET` every instruction is selected by some word of its channel (R64 to R68, R70, R74). -/
def Selectable.Statement (i : Instr) : Prop := i.wf Config.default.wsSet = true

theorem Selectable.symAlpha (idx : BitVec 5) : Selectable.Statement (.symAlpha idx) := by
  revert idx; unfold Selectable.Statement; decide

theorem Selectable.symWs : Selectable.Statement .symWs := by
  unfold Selectable.Statement; decide

theorem Selectable.symPad : Selectable.Statement .symPad := by
  unfold Selectable.Statement; decide

theorem Selectable.symInvalid : Selectable.Statement .symInvalid := by
  unfold Selectable.Statement; decide

theorem Selectable.endOfString : Selectable.Statement .endOfString := rfl

theorem Selectable.b32Take : Selectable.Statement .b32Take := rfl

theorem Selectable.truReq (digits : BitVec 4) (digest : Digest) : Selectable.Statement (.truReq digits digest) := rfl

theorem Selectable.truTake : Selectable.Statement .truTake := rfl

theorem Selectable.reset : Selectable.Statement .reset := rfl

end Sys2Proof.Laws
end

