-- ==== Sys2Proof/Laws/Steps.lean ====
section
/-! SUPPORT. What every instruction can do, said once, and the lemmas about whole strings and codes that claims share. -/

namespace Sys2Proof.Machine

/-- A phase is one of two. -/
theorem Phase.accept_or_done (p : Phase) : p = .accept ∨ p = .done := by cases p <;> simp

/-- Everything an instruction with a next state can have done: a `sym_in` beat applies one function of B32D, which it would apply
in every state of the same instance; the others do what R97, R121, R128 and R190 say. -/
theorem exec_cases (i : Instr) (s t : State) (h : exec i s = .next t) :
    (∃ f, isSymIn i = true ∧ t = s.symBeat f ∧
      ∀ s' : State, s'.cfg = s.cfg → exec i s' = .next (s'.symBeat f)) ∨
    (i = .b32Take ∧ s.b32.phase = .done ∧
      t = (s.setB32 B32.idle).setHost (s.host.receiveB32 s.b32.record)) ∨
    (∃ digits digest, i = .truReq digits digest ∧
      ((s.tru.phase = .done ∧ t = s) ∨
       (s.tru.phase = .accept ∧ t = s.setTru (Tru.request digits digest)))) ∨
    (i = .truTake ∧ s.tru.phase = .done ∧
      t = (s.setTru Tru.idle).setHost (s.host.receiveTru s.tru.record)) ∨
    (i = .reset ∧ t = (s.setB32 B32.idle).setTru Tru.idle) := by
  cases i with
  | b32Take =>
    rcases s.b32.phase.accept_or_done with hp | hp <;>
      simp [exec, execB32Take, State.b32Res, hp] at h
    exact .inr (.inl ⟨rfl, hp, h.symm⟩)
  | truTake =>
    rcases s.tru.phase.accept_or_done with hp | hp <;>
      simp [exec, execTruTake, State.truRes, hp] at h
    exact .inr (.inr (.inr (.inl ⟨rfl, hp, h.symm⟩)))
  | truReq digits digest =>
    refine .inr (.inr (.inl ⟨digits, digest, rfl, ?_⟩))
    rcases s.tru.phase.accept_or_done with hp | hp <;> simp [exec, execTruReq, hp] at h
    · exact .inr ⟨hp, h.symm⟩
    · exact .inl ⟨hp, h.symm⟩
  | reset => cases h; exact .inr (.inr (.inr (.inr ⟨rfl, rfl⟩)))
  | symAlpha idx =>
    cases h; exact .inl ⟨_, rfl, rfl, fun s' e => by simp [exec, execSymAlpha, e]⟩
  | symWs => cases h; exact .inl ⟨_, rfl, rfl, fun _ _ => rfl⟩
  | symPad => cases h; exact .inl ⟨_, rfl, rfl, fun _ _ => rfl⟩
  | symInvalid => cases h; exact .inl ⟨_, rfl, rfl, fun _ _ => rfl⟩
  | endOfString => cases h; exact .inl ⟨_, rfl, rfl, fun _ _ => rfl⟩

/-- No instruction touches the words and turns of the host: only the handshake of a step does. -/
theorem exec_host_words (i : Instr) (s t : State) (h : exec i s = .next t) :
    t.host.symIn = s.host.symIn ∧ t.host.truReq = s.host.truReq ∧ t.host.turns = s.host.turns := by
  rcases exec_cases i s t h with
    ⟨f, -, rfl, -⟩ | ⟨-, -, rfl⟩ | ⟨_, _, -, ⟨-, rfl⟩ | ⟨-, rfl⟩⟩ | ⟨-, -, rfl⟩ | ⟨-, rfl⟩
  · unfold State.symBeat; split <;> simp
  all_goals simp

/-- What a `sym_in` word decodes to is a `sym_in` instruction (R62). -/
theorem isSymIn_decodeSym (ws : List Byte) (w : Sym9) : isSymIn (decodeSym ws w) = true := by
  unfold decodeSym
  split
  · rfl
  · cases lut ws (symChar w) <;> rfl

/-! ## B32D -/

/-- With a fault recorded a symbol's body does not run (R91). -/
theorem B32.unlessFaulted_of_err (f : B32 → B32) (b : B32) (h : b.err ≠ 0) : b.unlessFaulted f = b := by
  rcases B32.unlessFaulted_cases f b with ⟨-, e⟩ | ⟨e, -⟩
  · exact e
  · exact absurd e h

/-- A symbol's body that keeps the phase keeps it drained or not. -/
theorem B32.unlessFaulted_phase (f : B32 → B32) (hf : ∀ b : B32, (f b).phase = b.phase) (b : B32) :
    (b.unlessFaulted f).phase = b.phase := by
  unfold B32.unlessFaulted
  split
  · exact hf b
  · rfl

/-- SYM.ALPHA leaves the phase and `pad_seen` (R92). -/
theorem B32.push_frame (secretMax : Option Nat) (idx : BitVec 5) (b : B32) :
    (b.push secretMax idx).phase = b.phase ∧ (b.push secretMax idx).padSeen = b.padSeen := by
  rcases B32.push_cases secretMax idx b with ⟨-, h⟩ | ⟨-, -, h⟩ | ⟨-, -, -, h⟩ | ⟨-, -, -, h⟩ <;>
    rw [h] <;> exact ⟨rfl, rfl⟩

/-- A string closes without a fault exactly when none is recorded and it had an alphabet character (R96). -/
theorem B32.close_err_zero (b : B32) : b.close.err = 0 ↔ b.err = 0 ∧ b.nonempty = true := by
  rw [B32.close_eq]
  by_cases h : b.err = 0#3 <;> cases hn : b.nonempty <;> simp [h]

/-- The record of a success (R20). -/
theorem B32.record_of_success (b : B32) (h : b.err = 0) :
    b.record = ⟨0, b.buf.length, b.buf, b.buf.isEmpty⟩ := by
  simp [B32.record, B32.keyEmpty, B32.clean, h]

/-- The record of a fault (R20). -/
theorem B32.record_of_fault (b : B32) (h : b.err ≠ 0) : b.record = ⟨b.err, 0, [], false⟩ := by
  have h' : ¬ b.err = 0#3 := h
  simp [B32.record, B32.keyEmpty, B32.clean, h']

/-- One more byte, read as a number. -/
theorem bigEndian_append (l : List Byte) (b : Byte) : bigEndian (l ++ [b]) = 256 * bigEndian l + b.toNat := by
  simp [bigEndian]

/-- One more symbol of a bit string (R42). -/
theorem bitString_append (l : List (BitVec 5)) (i : BitVec 5) :
    bitString (l ++ [i]) = 32 * bitString l + i.toNat := by
  induction l with
  | nil => simp [bitString]
  | cons a r ih =>
    simp only [List.cons_append, bitString, ih, List.length_append, List.length_singleton]; ring

/-- Two lists of beats, one after the other. -/
theorem execAll_append (l1 l2 : List Instr) (s t : State) (h : execAll l1 s = .next t) :
    execAll (l1 ++ l2) s = execAll l2 t := by
  induction l1 generalizing s with
  | nil => cases h; rfl
  | cons i r ih =>
    simp only [execAll, List.cons_append] at h ⊢
    cases he : exec i s with
    | next u => rw [he] at h; exact ih u h
    | fault f => cases f
    | refused f => rw [he] at h; cases h

/-- A run goes on where its first step leads. -/
theorem run_succ (k : Nat) (s t : State) (h : step s = .next t) :
    Host.Core.run Sys2Proof.core (k + 1) s = Host.Core.run Sys2Proof.core k t := by
  have h' : Sys2Proof.core.step s = .next t := h
  simp only [Host.Core.run]
  rw [h']

/-! ## TRU -/

/-- A digit count is legal from 1 to 10 (R71). -/
theorem digitsLegal_iff (digits : BitVec 4) :
    digitsLegal digits = true ↔ 1 ≤ digits.toNat ∧ digits.toNat ≤ 10 := by
  simp [digitsLegal]

/-- A request with a legal digit count (R121). -/
theorem Tru.request_legal (digits : BitVec 4) (digest : Digest) (h : digitsLegal digits = true) :
    Tru.request digits digest =
      { phase := .done, err := 0, ndig := digits, code := codeOf (trunc digest digits.toNat) } := by
  simp [Tru.request, h]

/-- A request with another digit count (R122). -/
theorem Tru.request_illegal (digits : BitVec 4) (digest : Digest) (h : digitsLegal digits = false) :
    Tru.request digits digest = Tru.raised .invalidDigits := by
  simp [Tru.request, h]

/-- A code has `digits` characters (R127). -/
theorem trunc_length (d : Digest) (digits : Nat) : (trunc d digits).length = digits := by simp [trunc]

/-- Character `j` of a code, and zero beyond its end (R121, R127). -/
theorem trunc_getD (d : Digest) (digits j : Nat) :
    (trunc d digits).getD j 0 =
      if j < digits then decimalChar (codeValue d digits) digits j else 0 := by
  simp only [trunc, List.getD_eq_getElem?_getD, List.getElem?_map]
  split <;> simp [*]

/-- The first characters of `tru.code` are the string it was made of. -/
theorem codeOf_take (chars : List Byte) (h : chars.length ≤ 10) :
    (codeOf chars).toList.take chars.length = chars := by
  apply List.ext_getElem
  · simp; omega
  · intro i h1 h2
    simp [codeOf, h2]

/-! ## The host -/

/-- The words of a string contribute its characters and its END. -/
theorem stringItem_stringWords (str : List Byte) : (stringWords str).map stringItem = stringItems str := by
  rw [stringWords, List.map_append, List.map_map, stringItems]
  congr 1
  exact List.map_congr_left fun c _ => stringItem_symWord c

/-- What the counter can be (R141). -/
theorem hotpCounter_cases (epoch step : Int) :
    (step ≤ 0 ∧ hotpCounter epoch step = .error .invalidStep) ∨
    (0 < step ∧ (epoch < 0 ∨ 2 ^ 64 ≤ epoch / step) ∧
      hotpCounter epoch step = .error .counterOverflow) ∨
    (0 < step ∧ 0 ≤ epoch ∧ epoch / step < 2 ^ 64 ∧
      hotpCounter epoch step = .ok (BitVec.ofInt 64 (epoch / step))) := by
  unfold hotpCounter
  split
  · next h => exact .inl ⟨h, rfl⟩
  · next h =>
    split
    · next h2 => exact .inr (.inl ⟨by omega, .inl h2, rfl⟩)
    · split
      · next h2 h3 => exact .inr (.inl ⟨by omega, .inr h3, rfl⟩)
      · next h2 h3 => exact .inr (.inr ⟨by omega, by omega, by omega, rfl⟩)

end Sys2Proof.Machine
end

