-- ==== Sys2Proof/Tests/Slice0.lean ====
section
/-! SUPPORT. Small tests, their expected values from spec/95_test_vectors.md and the rules, and one witness for every statement
with hypotheses. -/

namespace Sys2Proof.Tests
open Sys2Proof Sys2Proof.Machine

/-! ## Small states -/

/-- `WS_SET` as the spec has it by default. -/
def ws0 : List Byte := Config.default.wsSet

/-- The reset state with this B32D. -/
def withB32 (b : B32) : State := State.reset.setB32 b

/-- The reset state with this TRU. -/
def withTru (t : Tru) : State := State.reset.setTru t

/-- B32D in phase ACCEPT with `n` pending bits `a`. -/
def pending (a : BitVec 7) (n : BitVec 3) : B32 := { B32.idle with acc := a, nbits := n, nonempty := true }

/-- B32D after `"MY" END` (program P-7). -/
def doneMY : B32 :=
  { phase := .done, acc := 0, nbits := 2, padSeen := false, nonempty := true, err := 0, buf := [0x66] }

/-- The digest of vectors T-1 to T-4. -/
def digestT1 : Digest := 0xcc93cf18508d94934c64b65d8ba7667fb7cde4b0

/-- The digest of vectors T-5 to T-8. -/
def digestT5 : Digest := 0x75a48a19d4cbe100644e8ac1397eea747a2d33ab

/-- The TRU after the request of program P-4. -/
def doneP4 : Tru :=
  { phase := .done, err := 0, ndig := 6, code := #v[0x37, 0x35, 0x35, 0x32, 0x32, 0x34, 0, 0, 0, 0] }

/-- Both units offer a result. -/
def bothDone : State := (withB32 doneMY).setTru doneP4

/-- A state whose host has these turns and words. -/
def presenting (s : State) (turns : List Turn) (syms : List Sym9) (reqs : List TReq164) : State :=
  s.setHost { HostEnd.quiet with turns := turns, symIn := syms, truReq := reqs }

/-- An unbounded instance. -/
def cfg0 : Config := Config.default

/-- An instance with `SECRET_MAX = 2` (vectors BM-1 to BM-5). -/
def reset2 : State := { State.reset with cfg := { Config.default with secretMax := some 2 } }

/-! ## Well-formedness: an ill-formed term for each check -/

theorem test_wf_alpha_refused : (Instr.symAlpha 0).wf [0x41, 0x61] = false := by decide +kernel
theorem test_wf_ws_refused : Instr.symWs.wf [] = false := by decide +kernel
theorem test_wf_pad_refused : Instr.symPad.wf [0x3D] = false := by decide +kernel
theorem test_wf_invalid_refused : Instr.symInvalid.wf allCodes = false := by decide +kernel
theorem test_wf_default : (Instr.symAlpha 31).wf ws0 = true ∧ Instr.symWs.wf ws0 = true ∧
    Instr.symPad.wf ws0 = true ∧ Instr.symInvalid.wf ws0 = true := by decide +kernel

/-! ## Decoding: the boundary codes of vectors L-1 to L-7, and a word for each constructor -/

theorem test_decode_alpha_codes :
    decode ws0 (.symIn 0x041) = .ok (.symAlpha 0) ∧ decode ws0 (.symIn 0x05A) = .ok (.symAlpha 25) ∧
    decode ws0 (.symIn 0x061) = .ok (.symAlpha 0) ∧ decode ws0 (.symIn 0x07A) = .ok (.symAlpha 25) ∧
    decode ws0 (.symIn 0x032) = .ok (.symAlpha 26) ∧ decode ws0 (.symIn 0x037) = .ok (.symAlpha 31) := by decide

theorem test_decode_invalid_codes : ∀ w ∈ ([0x040, 0x05B, 0x060, 0x07B, 0x031, 0x038, 0x03C, 0x03E, 0x008, 0x00E, 0x01F,
    0x021, 0x07F, 0x080, 0x0A0, 0x0FF, 0x000] : List Sym9), decode ws0 (.symIn w) = .ok .symInvalid := by decide

theorem test_decode_ws_codes : ∀ w ∈ ([0x009, 0x00A, 0x00B, 0x00C, 0x00D, 0x020] : List Sym9),
    decode ws0 (.symIn w) = .ok .symWs := by decide

theorem test_decode_pad : decode ws0 (.symIn 0x03D) = .ok .symPad := by decide

theorem test_decode_end : ∀ w ∈ ([0x100, 0x13D, 0x1FF] : List Sym9), decode ws0 (.symIn w) = .ok .endOfString := by decide

/-- The request word of program P-4. -/
theorem test_decode_req :
    decode ws0 (.truReq 0x6cc93cf18508d94934c64b65d8ba7667fb7cde4b0) = .ok (.truReq 6 digestT1) := by decide

/-- R74: 1 is the event, 0 is no event. -/
theorem test_decode_events :
    decode ws0 (.b32Ready 1) = .ok .b32Take ∧ decode ws0 (.truReady 1) = .ok .truTake ∧ decode ws0 (.rst 1) = .ok .reset ∧
    decode ws0 (.b32Ready 0) = .error .noEvent ∧ decode ws0 (.truReady 0) = .error .noEvent ∧
    decode ws0 (.rst 0) = .error .noEvent := by decide

/-- A parameter choice with `A` in `WS_SET`: its lower-case alias still selects index 0 (R63). -/
theorem test_decode_ws_first :
    decode [0x41] (.symIn 0x041) = .ok .symWs ∧ decode [0x41] (.symIn 0x061) = .ok (.symAlpha 0) := by decide

theorem test_table_words :
    decodeTableWord 16 0x04D = some (.symAlpha 12) ∧ decodeTableWord 16 0x13D = some .endOfString ∧
    decodeTableWord 168 0x6cc93cf18508d94934c64b65d8ba7667fb7cde4b0 = some (.truReq 6 digestT1) ∧
    decodeTableWord 8 1 = some .reset ∧ decodeTableWord 16 0x200 = none := by decide

/-- A digest byte at both ends (R70): `digest[0]` and `digest[19]` of vector T-1. -/
theorem test_digest_bytes : digestByte digestT1 0 = 0xcc ∧ digestByte digestT1 19 = 0xb0 := by decide

/-! ## One step of each instruction -/

/-- Vector A-7: the tenth bit makes a byte. -/
theorem test_alpha_emits : exec (.symAlpha 1) (withB32 (pending 0b01001 5)) =
    .next (withB32 { pending 0b01 2 with buf := [0x48] }) := rfl

/-- Vector A-3: seven bits stay pending. -/
theorem test_alpha_loads : exec (.symAlpha 21) (withB32 (pending 0b10 2)) = .next (withB32 (pending 0b1010101 7)) := rfl

/-- Trace TR-2, beat 8. -/
theorem test_ws : exec .symWs (withB32 { pending 0 1 with padSeen := true }) =
    .next (withB32 { pending 0 1 with padSeen := true }) := rfl

/-- Trace TR-2, beat 7. -/
theorem test_pad : exec .symPad (withB32 (pending 0 1)) = .next (withB32 { pending 0 1 with padSeen := true }) := rfl

/-- Trace TR-4, beat 4. -/
theorem test_invalid : exec .symInvalid (withB32 (pending 0b1010011 7)) =
    .next (withB32 { pending 0b1010011 7 with err := 1 }) := rfl

/-- Trace TR-4, beat 11: drained. -/
theorem test_invalid_drained : exec .symInvalid (withB32 { pending 0 4 with err := 6 }) =
    .next (withB32 { pending 0 4 with err := 6 }) := rfl

/-- Trace TR-6: the empty string. -/
theorem test_end_empty : exec .endOfString State.reset =
    .next (withB32 { B32.idle with phase := .done, err := 1 }) := rfl

/-- Vector B-18: one symbol is a success with zero bytes. -/
theorem test_end_one_symbol : (withB32 (pending 0 5).close).b32Res =
    some { err := 0, slen := 0, data := [], keyEmpty := true } := by decide

/-- Program P-7: the record of `"MY"` goes to the host, and the unit is idle. -/
theorem test_b32_take : exec .b32Take (withB32 doneMY) =
    .next (State.reset.setHost
      { HostEnd.quiet with b32Taken := [{ err := 0, slen := 1, data := [0x66], keyEmpty := false }] }) := rfl

/-- Program P-4. -/
theorem test_tru_req : exec (.truReq 6 digestT1) State.reset = .next (withTru doneP4) := rfl

/-- Program P-5, the second request: 11 digits. -/
theorem test_tru_req_fault : exec (.truReq 11 digestT5) State.reset =
    .next (withTru { phase := .done, err := 4, ndig := 0, code := #v[0, 0, 0, 0, 0, 0, 0, 0, 0, 0] }) := rfl

/-- Program P-4: the packed code (R26). -/
theorem test_code_str : doneP4.codeStr = 0x37353532323400000000 := by decide

/-- Program P-4: the code goes to the host, and the unit is idle. -/
theorem test_tru_take : exec .truTake (withTru doneP4) =
    .next (State.reset.setHost
      { HostEnd.quiet with truTaken := [{ err := 0, ndig := 6, code := [0x37, 0x35, 0x35, 0x32, 0x32, 0x34] }] }) := rfl

/-- Program P-7: RESET drops both pending results. -/
theorem test_reset : exec .reset bothDone = .next State.reset := rfl

/-! ## Steps -/

/-- Program P-3: a symbol waits while a result is pending. -/
theorem test_step_hold : step (presenting (withB32 doneMY) [turnOn .symIn] [0x04D] []) =
    .next (presenting (withB32 doneMY) [] [0x04D] []) := rfl

/-- A table row's word is the next beat from reset. -/
theorem test_step_table_word : step (State.reset.withFetchWord 16 0x04D) =
    .next ((withB32 (pending 0b01100 5)).setHost { HostEnd.quiet with symOpen := [.char 0x4D] }) := rfl

/-- R204 (b): with no turn left a waiting word is accepted, that of the TRU too while B32D holds a result. -/
theorem test_step_waiting_words :
    (∃ t, step (presenting State.reset [] [0x04D] [0]) = .next t ∧ t.host.symIn = [] ∧ t.host.truReq = [0]) ∧
    (∃ t, step (presenting (withB32 doneMY) [] [0x04D] [0]) = .next t ∧ t.host.symIn = [0x04D] ∧ t.host.truReq = []) :=
  ⟨⟨_, rfl, rfl, rfl⟩, ⟨_, rfl, rfl, rfl⟩⟩

/-- RESET has priority over a presented word, which still waits (R190). -/
theorem test_step_reset : step (presenting bothDone [⟨true, some .symIn⟩] [0x04D] []) =
    .next (presenting State.reset [] [0x04D] []) := rfl

/-! ## The end of a run (R194) -/

theorem test_final_at_reset : Final State.reset := by unfold Final; decide

/-- A string of whitespace only, begun and not ended: B32D is idle, the run is not over. -/
theorem test_final_open_string :
    ∃ t, step (presenting State.reset [] [0x020] []) = .next t ∧ t.b32 = B32.idle ∧ ¬ Final t :=
  ⟨_, rfl, rfl, by unfold Final; decide⟩

/-- A RESET that discards a result never taken: both units are idle, the run is not over. -/
theorem test_final_reset_discards :
    ∃ t, step ((presenting (withTru doneP4) [⟨true, none⟩] [] []).setHost
      { HostEnd.quiet with turns := [⟨true, none⟩], reqOpen := some (reqWord 6 digestT1) }) = .next t ∧
      t.tru = Tru.idle ∧ t.host.reqOwed = [reqWord 6 digestT1] ∧ ¬ Final t :=
  ⟨_, rfl, rfl, rfl, by unfold Final; decide⟩

/-- The abandoned request, presented again and taken: the run is over. -/
theorem test_final_presented_again :
    ∃ t, step ((withTru doneP4).setHost
      { HostEnd.quiet with turns := [turnOn .truRes], reqOpen := some (reqWord 6 digestT1), reqOwed := [reqWord 6 digestT1] }) =
      .next t ∧ Final t :=
  ⟨_, rfl, by unfold Final; decide⟩

/-- A request abandoned twice is owed once, and one taken result of it settles it. -/
theorem test_request_abandoned_twice :
    let h : HostEnd := { HostEnd.quiet with reqOpen := some (reqWord 6 digestT1) }
    let twice := (h.abandon.acceptReq (reqWord 6 digestT1)).abandon
    twice.reqOwed = [reqWord 6 digestT1] ∧ (twice.acceptReq (reqWord 6 digestT1)).closeRequest = HostEnd.quiet := by decide

/-- A string abandoned twice, the second time after more words, is owed once; a result of that string settles it, one of
another string does not. -/
theorem test_string_abandoned_twice :
    let h : HostEnd := { HostEnd.quiet with symOpen := [.char 0x4D] }
    let twice := ((h.abandon.acceptSym 0x04D).acceptSym 0x05A).abandon
    twice.symOwed = [[.char 0x4D, .char 0x5A]] ∧
    (((twice.acceptSym 0x04D).acceptSym 0x05A).acceptSym endWord).closeString = HostEnd.quiet ∧
    ((twice.acceptSym 0x04D).acceptSym endWord).closeString.symOwed = [[.char 0x4D, .char 0x5A]] := by decide

/-- The low bits of an END word are no part of a string (R68, U2): abandoned with one END word, presented again with another, and
taken, it is no longer owed. -/
theorem test_string_again_with_other_end :
    let abandoned := ((HostEnd.quiet.acceptSym 0x04D).acceptSym 0x100).abandon
    abandoned.symOwed = [stringItems [0x4D]] ∧
    ((abandoned.acceptSym 0x04D).acceptSym 0x13D).closeString = HostEnd.quiet := by decide

/-- Of two owed strings the one that the taken string presents is settled; a host that set out two equal requests lists both. -/
theorem test_owed_apart :
    settleString [[.char 0x4D], [.char 0x4D, .char 0x5A]] (stringItems [0x4D, 0x5A]) = [[.char 0x4D]] ∧
    ({ HostEnd.quiet with reqOpen := some 0, reqOwed := [0, 0] } : HostEnd).abandon.closeRequest.reqOwed = [0, 0] ∧
    ({ HostEnd.quiet with reqOpen := some 0, reqOwed := [0, 0] } : HostEnd).closeRequest.reqOwed = [0] := by decide

/-! ## Whole strings and the host's side -/

/-- Vectors B-3 and B-24. -/
theorem test_decode_string :
    decodeString ws0 [0x4D, 0x5A, 0x58, 0x57, 0x36, 0x3D, 0x3D, 0x3D] = .ok [0x66, 0x6f, 0x6f] ∧
    decodeString ws0 [0x41, 0x42, 0x3D, 0x43] = .error .invalidSecretFormat := by decide

/-- Vector H-14 and R142. -/
theorem test_counter : hotpCounter 59 30 = .ok 1 ∧ hotpMessage 1 = [0, 0, 0, 0, 0, 0, 0, 1] := by decide

/-- Vectors H-20, H-24 and H-26. -/
theorem test_generate_faults :
    generate [] 59 30 6 = .error .emptySecret ∧ generate [1] (-5) 0 6 = .error .invalidStep ∧
    generate [1] 59 30 11 = .error .invalidDigits := ⟨rfl, rfl, rfl⟩

/-- Vectors H-22 and H-23. -/
theorem test_batch : generateBatch [1] 59 0 30 6 = .ok [] ∧ generateBatch [1] (-1) 2 30 6 = .error .counterOverflow :=
  ⟨rfl, rfl⟩

/-! ## Witnesses: each statement's hypotheses can be met -/

theorem witness_DecodeEncodeRoundTrip :
    (Instr.symAlpha 0).wf [0x41] = true ∧ (Instr.symAlpha 31).wf ws0 = true ∧ Instr.symInvalid.wf ws0 = true ∧
    (Instr.truReq 15 0).wf [] = true := by decide

theorem witness_DecodedIsWellFormed : decode [] (.symIn 0x020) = .ok .symInvalid ∧ decode ws0 (.symIn 0x1FF) = .ok .endOfString := by
  decide

/-- Both ends of both index ranges, and codes just outside them. -/
theorem witness_LutIndexIsAlphabetPosition :
    lut ws0 0x41 = .alpha 0 ∧ lut ws0 0x7A = .alpha 25 ∧ lut ws0 0x32 = .alpha 26 ∧ lut ws0 0x37 = .alpha 31 ∧
    lut ws0 0x40 = .invalid ∧ lut ws0 0x5B = .invalid ∧ lut ws0 0x31 = .invalid ∧ lut ws0 0x38 = .invalid ∧
    lut [0x61] 0x61 = .ws := by decide

theorem witness_ResetHasPriority :
    (presenting bothDone [⟨true, some .symIn⟩] [0x04D] []).host.turns = ⟨true, some .symIn⟩ :: [] := rfl

/-- The last conjunct is the case of a waiting word once no turn is left. -/
theorem witness_StepRunsDecodedInstruction :
    (let s := presenting State.reset [turnOn .symIn] [0x1FF] []
     s.host.turns = turnOn .symIn :: [] ∧ s.host.symIn = 0x1FF :: [] ∧ s.b32.phase = .accept) ∧
    (let s := presenting State.reset [turnOn .truReq] [] [0]
     s.host.turns = turnOn .truReq :: [] ∧ s.host.truReq = 0 :: [] ∧ s.tru.phase = .accept) ∧
    (let s := presenting bothDone [turnOn .b32Res] [] []
     s.host.turns = turnOn .b32Res :: [] ∧ s.b32.phase = .done) ∧
    (let s := presenting bothDone [turnOn .truRes] [] []
     s.host.turns = turnOn .truRes :: [] ∧ s.tru.phase = .done) ∧
    (presenting bothDone [⟨true, none⟩] [] []).host.turns = ⟨true, none⟩ :: [] ∧
    (let s := presenting State.reset [] [] [0]
     s.host.turns = [] ∧ s.host.symIn = [] ∧ s.host.truReq = 0 :: [] ∧ s.tru.phase = .accept) :=
  ⟨⟨rfl, rfl, rfl⟩, ⟨rfl, rfl, rfl⟩, ⟨rfl, rfl⟩, ⟨rfl, rfl⟩, rfl, ⟨rfl, rfl, rfl, rfl⟩⟩

/-- No word waits, or both units hold a result. -/
theorem witness_EveryStepCompletes :
    (State.reset.host.turns = [] ∧ State.reset.host.symIn = [] ∧ State.reset.host.truReq = []) ∧
    (let s := presenting bothDone [] [0x04D] [0]
     s.host.turns = [] ∧ s.b32.phase = .done ∧ s.tru.phase = .done) := by decide

theorem witness_SymbolWaitsWhileResultPending :
    (let s := presenting (withB32 doneMY) [turnOn .symIn] [0x04D] []
     s.b32.phase = .done ∧ s.host.turns = turnOn .symIn :: [] ∧ s.host.symIn = 0x04D :: []) ∧
    isSymIn .symWs = true ∧ (∃ t, exec .b32Take (withB32 doneMY) = .next t ∧ t.b32.phase = .accept) ∧
    (∃ t, exec .reset (withB32 doneMY) = .next t ∧ t.b32.phase = .accept) :=
  ⟨⟨rfl, rfl, rfl⟩, rfl, ⟨_, rfl, rfl⟩, ⟨_, rfl, rfl⟩⟩

theorem witness_RequestWaitsWhileResultPending :
    (let s := presenting (withTru doneP4) [turnOn .truReq] [] [0]
     s.tru.phase = .done ∧ s.host.turns = turnOn .truReq :: [] ∧ s.host.truReq = 0 :: []) ∧
    (∃ t, exec .truTake (withTru doneP4) = .next t ∧ t.tru.phase = .accept) ∧
    (∃ t, exec .reset (withTru doneP4) = .next t ∧ t.tru.phase = .accept) :=
  ⟨⟨rfl, rfl, rfl⟩, ⟨_, rfl, rfl⟩, ⟨_, rfl, rfl⟩⟩

/-- One step for each of the four clauses. -/
theorem witness_PhaseTransitionTables :
    (∃ t, exec .endOfString State.reset = .next t ∧ State.reset.b32.phase = .accept ∧ t.b32.phase = .done) ∧
    (∃ t, exec .b32Take bothDone = .next t ∧ bothDone.b32.phase = .done ∧ t.b32.phase = .accept) ∧
    (∃ t, exec (.truReq 0 0) State.reset = .next t ∧ State.reset.tru.phase = .accept ∧ t.tru.phase = .done) ∧
    (∃ t, exec .truTake bothDone = .next t ∧ bothDone.tru.phase = .done ∧ t.tru.phase = .accept) :=
  ⟨⟨_, rfl, rfl, rfl⟩, ⟨_, rfl, rfl, rfl⟩, ⟨_, rfl, rfl, rfl⟩, ⟨_, rfl, rfl, rfl⟩⟩

/-- Both units hold a result, and the host takes one. -/
def bothDoneTaking : State := presenting bothDone [turnOn .b32Res] [] []

theorem bothDoneTaking_inv : bothDoneTaking.Inv where
  b32 :=
    { accSmall := by decide
      errLegal := .inl rfl
      bufFits := trivial
      symbols := fun _ => ⟨2, rfl, by decide⟩
      doneNonempty := fun _ _ => rfl }
  tru :=
    { acceptIdle := fun h => by cases h
      errLegal := .inl rfl
      ndigLegal := fun _ _ => by decide
      faultNoDigits := fun h => by cases h
      digitsShown := by decide
      restZero := by decide }

/-- The books of a host whose string `"MY"` and whose request of program P-4 await their TAKEs. -/
def bookedTaking : State :=
  bothDone.setHost
    { HostEnd.quiet with
      turns := [turnOn .b32Res], symOpen := stringItems [0x4D, 0x59], reqOpen := some (reqWord 6 digestT1) }

theorem bookedTaking_booked : bookedTaking.Booked where
  begun := fun h => by cases h
  ended := by decide
  requested := by decide

theorem witness_StepKeepsInvariant :
    (bothDoneTaking.Inv ∧ ∃ t, step bothDoneTaking = .next t ∧ t.b32 = B32.idle) ∧
    (bookedTaking.Booked ∧ ∃ t, step bookedTaking = .next t ∧ t.host.symOpen = []) :=
  ⟨⟨bothDoneTaking_inv, _, rfl, rfl⟩,
    ⟨bookedTaking_booked, _, rfl, rfl⟩⟩

/-- A record is handed over in this step, and one was held before. -/
theorem witness_StepDeliversSoundRecords :
    let r : B32Res := { err := 1, slen := 0, data := [], keyEmpty := false }
    let s := bothDoneTaking.setHost (bothDoneTaking.host.receiveB32 r)
    s.Inv ∧ (∀ x ∈ s.host.b32Taken, x.Sound) ∧ (∀ x ∈ s.host.truTaken, x.Sound) ∧
    ∃ t, step s = .next t ∧ t.host.b32Taken.length = 2 := by
  refine ⟨⟨bothDoneTaking_inv.b32, bothDoneTaking_inv.tru⟩, ?_, ?_, _, rfl, rfl⟩
  · intro x hx
    simp only [State.setHost, HostEnd.receiveB32, bothDoneTaking, presenting, HostEnd.quiet, List.nil_append,
      List.mem_singleton] at hx
    subst hx
    unfold B32Res.Sound
    decide
  · intro x hx; cases hx

theorem witness_StepKeepsConfiguration : ∃ t, step bothDoneTaking = .next t := ⟨_, rfl⟩

theorem witness_FirstFaultSticks :
    let s := withB32 { pending 0 4 with err := 6 }
    s.b32.err ≠ 0 ∧ (∃ t, exec (.symAlpha 3) s = .next t) ∧ (∃ t, exec .endOfString s = .next t) :=
  ⟨by decide, ⟨_, rfl⟩, ⟨_, rfl⟩⟩

/-- A step that grows the buffer, and one that does not. -/
theorem witness_BufferIsAppendOnly :
    (∃ t, exec (.symAlpha 24) (withB32 (pending 0b01100 5)) = .next t ∧ t.b32.buf = [0x66]) ∧
    (∃ t, exec .endOfString (withB32 doneMY) = .next t ∧ t.b32.buf = [0x66]) :=
  ⟨⟨_, rfl, rfl⟩, ⟨_, rfl, rfl⟩⟩

theorem witness_UnitsCommute :
    onB32 .b32Take = true ∧ onTru .truTake = true ∧
    ∃ s1 s2, exec .b32Take bothDone = .next s1 ∧ exec .truTake s1 = .next s2 := ⟨rfl, rfl, _, _, rfl, rfl⟩

theorem witness_UnitsSeeOnlyTheirOwnState :
    (onB32 .b32Take = true ∧ bothDone.b32 = (withB32 doneMY).b32 ∧ bothDone.cfg = (withB32 doneMY).cfg ∧
      ∃ t, exec .b32Take (withB32 doneMY) = .next t) ∧
    (onTru .truTake = true ∧ bothDone.tru = (withTru doneP4).tru ∧ ∃ t, exec .truTake (withTru doneP4) = .next t) :=
  ⟨⟨rfl, rfl, rfl, _, rfl⟩, rfl, rfl, _, rfl⟩

/-- A state in phase ACCEPT for each branch: drained, after `=`, kept pending, buffer full, byte appended. -/
theorem witness_SymAlphaPushesFiveBits :
    (withB32 { pending 0 4 with err := 6 }).b32.phase = .accept ∧
    (withB32 { pending 0 1 with padSeen := true }).b32.phase = .accept ∧
    ((withB32 (pending 0b10 2)).b32.phase = .accept ∧ (2 : Nat) + 5 < 8) ∧
    (let s := reset2.setB32 { pending 0b0110 4 with buf := [0x66, 0x6f] }
     s.b32.phase = .accept ∧ s.cfg.secretMax = some s.b32.buf.length) ∧
    ((withB32 (pending 0b101 3)).b32.phase = .accept ∧ ¬ (3 : Nat) + 5 < 8) := by decide

theorem witness_SlicerLosesNoBit :
    let s := withB32 (pending 0b1111111 7)
    s.b32.acc.toNat < 2 ^ s.b32.nbits.toNat ∧ s.b32.phase = .accept ∧ s.b32.err = 0 ∧
    ∃ t, exec (.symAlpha 31) s = .next t ∧ t.b32.err = 0 := ⟨by decide, rfl, rfl, _, rfl, rfl⟩

theorem witness_phase_accept : State.reset.b32.phase = .accept ∧ State.reset.tru.phase = .accept := by decide

theorem witness_phase_done : bothDone.b32.phase = .done ∧ bothDone.tru.phase = .done := by decide

theorem witness_SymPadSetsPadSeen : (withB32 (pending 0 1)).b32.phase = .accept := rfl
theorem witness_SymInvalidRecordsFault : (withB32 (pending 0b1010011 7)).b32.phase = .accept := rfl
theorem witness_EndPublishesResult : State.reset.b32.phase = .accept := rfl
theorem witness_DecoderRecordFields : State.reset.b32.phase = .accept ∧ bothDone.b32.phase = .done := by decide
theorem witness_B32TakeHandsOverAndClears : (withB32 doneMY).b32.phase = .done := rfl
theorem witness_TakeWithoutValidIsRefused :
    State.reset.b32.phase = .accept ∧ State.reset.tru.phase = .accept := by decide

theorem witness_DecoderFrame :
    (∃ t, exec (.symAlpha 1) (withB32 (pending 0b01001 5)) = .next t) ∧ (∃ t, exec .symPad State.reset = .next t) ∧
    (∃ t, exec .symInvalid State.reset = .next t) ∧ (∃ t, exec .b32Take bothDone = .next t) ∧
    onB32 .b32Take = true ∧ onB32 .symPad = true := ⟨⟨_, rfl⟩, ⟨_, rfl⟩, ⟨_, rfl⟩, ⟨_, rfl⟩, rfl, rfl⟩

/-- With the string `"A= "`: `pad_seen` is set and no fault is recorded. -/
theorem witness_StringStateInvariants :
    State.reset.b32 = B32.idle ∧
    ∃ t, execAll (symbolsOf ws0 [0x41, 0x3D, 0x20]) State.reset = .next t ∧ t.b32.padSeen = true ∧ t.b32.err = 0 :=
  ⟨rfl, _, rfl, rfl, rfl⟩

/-- Strings of both outcomes: B-14 and B-21. -/
theorem witness_StreamAgreesWithDecode :
    State.reset.b32 = B32.idle ∧ State.reset.cfg.secretMax = none ∧ letterFree State.reset.cfg.wsSet = true ∧
    decodeString ws0 [] = .error .invalidSecretFormat ∧ decodeString ws0 [0x41, 0x41] = .ok [0x00] := by decide

theorem witness_AcceptedStringsAreTheGrammar :
    State.reset.b32 = B32.idle ∧ State.reset.cfg.secretMax = none ∧ Accepted ws0 [0x20, 0x41, 0x3D] :=
  ⟨rfl, rfl, [0x20], 0x41, [], [0x3D], rfl, by decide, by decide, by decide, by decide⟩

/-- Vectors BM-3 (`"MZXW6-"`: the prefix `"MZXW6"` has one byte too many) and BM-1 (`"MZXW"`: no prefix has). -/
theorem witness_FiniteCapacityFaults :
    reset2.b32 = B32.idle ∧ reset2.cfg.secretMax = some 2 ∧ letterFree reset2.cfg.wsSet = true ∧
    (∃ p bytes, p <+: [0x4D, 0x5A, 0x58, 0x57, 0x36, 0x2D] ∧ decodeString reset2.cfg.wsSet p = .ok bytes ∧
      2 < bytes.length) ∧
    ¬ (∃ p bytes, p <+: [0x4D, 0x5A, 0x58, 0x57] ∧ decodeString reset2.cfg.wsSet p = .ok bytes ∧ 2 < bytes.length) := by
  refine ⟨rfl, rfl, by decide, ⟨[0x4D, 0x5A, 0x58, 0x57, 0x36], [0x66, 0x6f, 0x6f], by decide, by decide, by decide⟩, ?_⟩
  rintro ⟨p, bytes, hp, hd, hl⟩
  have h : ∀ q ∈ ([0x4D, 0x5A, 0x58, 0x57] : List Byte).inits,
      ((decodeString reset2.cfg.wsSet q).toOption.getD []).length ≤ 2 := by decide
  have hq := h p ((List.mem_inits p _).mpr hp)
  rw [hd] at hq
  exact absurd hq (Nat.not_le.mpr hl)

theorem witness_StringTransactionTakesNPlusTwoSteps :
    let s := presenting State.reset (stringTurns 2) (stringWords [0x4D, 0x59]) []
    s.b32 = B32.idle ∧ s.host.symOpen = [] ∧
    s.host.symIn = stringWords [0x4D, 0x59] ++ [] ∧ s.host.turns = stringTurns 2 ++ [] ∧
    s.cfg.secretMax = none ∧ letterFree s.cfg.wsSet = true ∧
    s.tru = Tru.idle ∧ s.host.truReq = [] ∧ settleString s.host.symOwed (stringItems [0x4D, 0x59]) = [] ∧
    settleString [[.char 0x4D]] (stringItems [0x4D, 0x59]) = [] ∧ s.host.reqOpen = none ∧ s.host.reqOwed = [] := by decide

theorem witness_DecodeIgnoresCaseSpacePadding :
    letterFree ws0 = true ∧ ([0x6D, 0x7A] : List Byte).map fold = ([0x4D, 0x5A] : List Byte).map fold ∧
    (0x20 : Byte) ∈ ws0 := by decide

theorem witness_DecodedLength : letterFree ws0 = true ∧ decodeString ws0 [0x4D, 0x59] = .ok [0x66] := by decide

/-- Vectors B-30 and B-5. -/
theorem witness_DecodeOfPrefixIsPrefix :
    letterFree ws0 = true ∧ padChar ∉ ([0x4D, 0x5A] : List Byte) ∧ padChar ∉ ([0x58, 0x57] : List Byte) ∧
    decodeString ws0 [0x4D, 0x5A] = .ok [0x66] ∧ decodeString ws0 ([0x4D, 0x5A] ++ [0x58, 0x57]) = .ok [0x66, 0x6f] := by
  decide

/-- A count for each branch, at the ends of its range. -/
theorem witness_TruReqPublishesCode :
    State.reset.tru.phase = .accept ∧ digitsLegal 1 = true ∧ digitsLegal 10 = true ∧
    digitsLegal 0 = false ∧ digitsLegal 11 = false ∧ digitsLegal 15 = false := by decide

/-- Both outcomes at the ends of their ranges: 0 and 11 fault, 1 and 10 do not. -/
theorem witness_InvalidDigitsExactlyOutsideRange :
    State.reset.tru.phase = .accept ∧ (Tru.request 0 0).err = 4 ∧ (Tru.request 11 0).err = 4 ∧
    (Tru.request 1 0).err ≠ 4 ∧ (Tru.request 10 0).err ≠ 4 := by decide

theorem witness_CodeReadsAsRemainder : 1 ≤ 1 ∧ (trunc digestT1 1) = [0x34] := by decide

/-- Two digests that differ in the top bit of the window and in a byte outside it. -/
theorem witness_OtherDigestBitsDoNotMatter :
    let d := digestT1
    let d' : Digest := 0x4c93cf18508d94934c64b65d8ba7667fb7cd00f0
    d ≠ d' ∧ (digestByte d 19).toNat % 16 = (digestByte d' 19).toNat % 16 ∧
    (let o := (digestByte d 19).toNat % 16
     (digestByte d o).toNat % 128 = (digestByte d' o).toNat % 128 ∧ digestByte d (o + 1) = digestByte d' (o + 1) ∧
     digestByte d (o + 2) = digestByte d' (o + 2) ∧ digestByte d (o + 3) = digestByte d' (o + 3)) := by decide

/-- Vectors T-1 and T-2. -/
theorem witness_ShorterCodeIsTailOfLonger :
    (6 : Nat) < 8 ∧ trunc digestT1 6 = [0x37, 0x35, 0x35, 0x32, 0x32, 0x34] ∧
    trunc digestT1 8 = [0x38, 0x34, 0x37, 0x35, 0x35, 0x32, 0x32, 0x34] := by decide

theorem witness_TruncatorRecordFields : State.reset.tru.phase = .accept ∧ (withTru doneP4).tru.phase = .done := by decide
theorem witness_TruTakeHandsOverAndClears : (withTru doneP4).tru.phase = .done := rfl

theorem witness_TruncatorFrame :
    onTru .truTake = true ∧ (∃ t, exec .truTake bothDone = .next t) ∧ (∃ t, exec (.truReq 15 0) State.reset = .next t) :=
  ⟨rfl, ⟨_, rfl⟩, ⟨_, rfl⟩⟩

theorem witness_TruTransactionTakesTwoSteps :
    let s := presenting State.reset [turnOn .truReq, turnOn .truRes] [] [reqWord 6 digestT1]
    s.tru = Tru.idle ∧ 1 ≤ (6 : BitVec 4).toNat ∧ (6 : BitVec 4).toNat ≤ 10 ∧
    s.host.truReq = reqWord 6 digestT1 :: [] ∧ s.host.turns = turnOn .truReq :: turnOn .truRes :: [] := by decide

/-- Each clause at the ends of its range. -/
theorem witness_CounterRule :
    hotpCounter 59 0 = .error .invalidStep ∧ hotpCounter (-1) 1 = .error .counterOverflow ∧
    hotpCounter (2 ^ 64) 1 = .error .counterOverflow ∧ hotpCounter (2 ^ 64 - 1) 1 = .ok 0xFFFFFFFFFFFFFFFF ∧
    hotpCounter 0 1 = .ok 0 := by decide

theorem witness_GenerateFailsExactlyWhenAFaultApplies :
    generateFaults [1] 59 30 6 = [] ∧ generateFaults [] (-5) 30 0 ≠ [] := by decide

/-- Vector H-3a: 0 and 29 lie in one window. -/
theorem witness_GenerateDependsOnWindowOnly : (0 : Int) / 30 = 29 / 30 := by decide

/-- Vector H-21: 30 and 59 lie in one window; a batch of one window is returned. -/
theorem witness_BatchIsContiguousAndAnchored :
    (∃ w, generateBatch [1] 59 1 30 6 = .ok [w] ∧ w.startEpochSeconds = 30000) ∧ (30 : Int) / 30 = 59 / 30 :=
  ⟨⟨_, rfl, rfl⟩, by decide⟩

/-- A bad step, an empty batch, and a batch whose first window fails (H-22, H-23). -/
theorem witness_BatchIsAllOrNothing :
    (0 : Int) ≤ 0 ∧ (0 : Int) < 30 ∧ (-1 : Int) < 0 ∧ 0 < 2 ∧ generateBatch [1] (-1) 2 30 6 = .error .counterOverflow :=
  ⟨by decide, by decide, by decide, by decide, rfl⟩

/-- Vectors B-18 and B-21: one symbol and two. -/
theorem witness_EmptySecretIsOneSymbol :
    letterFree ws0 = true ∧ decodeString ws0 [0x41] = .ok [] ∧ decodeString ws0 [0x41, 0x41] = .ok [0x00] := by decide

/-- A run from a state with a waiting word on each channel and one turn that names neither: the turn passes, then the `sym_in`
word is accepted, then the `tru_req` word (`digits = 0`), and from then on nothing moves. -/
def waitingRun : Nat → State
  | 0 => presenting State.reset [turnOn .truRes] [0x04D] [0]
  | 1 => presenting State.reset [] [0x04D] [0]
  | 2 => (withB32 (pending 0b01100 5)).setHost { HostEnd.quiet with truReq := [0], symOpen := [.char 0x4D] }
  | _ => ((withB32 (pending 0b01100 5)).setTru (Tru.raised .invalidDigits)).setHost
      { HostEnd.quiet with symOpen := [.char 0x4D], reqOpen := some 0 }

theorem witness_WaitingWordIsAccepted :
    (∀ n, step (waitingRun n) = .next (waitingRun (n + 1))) ∧
    (waitingRun 0).host.symIn = 0x04D :: [] ∧ (waitingRun 0).host.truReq = 0 :: [] :=
  ⟨fun n => match n with
    | 0 => rfl
    | 1 => rfl
    | 2 => rfl
    | _ + 3 => rfl, rfl, rfl⟩

theorem witness_SessionYieldsGeneratedCode :
    State.reset.b32 = B32.idle ∧ State.reset.tru = Tru.idle ∧ State.reset.cfg.secretMax = none ∧
    letterFree State.reset.cfg.wsSet = true ∧ (∃ code, generateFromString ws0 [0x4D, 0x59] 59 30 6 = .ok code) ∧
    (∃ code t, hostSession State.reset [0x4D, 0x59] 59 30 6 = .ok (code, t)) :=
  ⟨rfl, rfl, rfl, by decide, ⟨_, rfl⟩, ⟨_, _, rfl⟩⟩

end Sys2Proof.Tests
end

namespace Sys2Proof.Machine

/-! # What the state and every step keep

## The instructions, said once -/

/-- What a `sym_in` instruction can make of B32D, with the condition each outcome has (R91 to R96, R99). -/
inductive B32.Beat (secretMax : Option Nat) (b : B32) : Instr → B32 → Prop
  /-- R99: a result is pending. -/
  | held (i : Instr) (hdone : b.phase = .done) : Beat secretMax b i b
  /-- R91: the rest of a faulty string is drained. -/
  | drained (i : Instr) (hend : i ≠ .endOfString) (herr : b.err ≠ 0) : Beat secretMax b i b
  /-- R93 -/
  | ws : Beat secretMax b .symWs b
  /-- R94 -/
  | pad (herr : b.err = 0) : Beat secretMax b .symPad b.markPad
  /-- R92 and R95: a fault is recorded, `SecretTooLong` only under a finite capacity. -/
  | fault (i : Instr) (f : FaultName) (hend : i ≠ .endOfString) (herr : b.err = 0)
      (hf : f = .invalidSecretFormat ∨ (f = .secretTooLong ∧ secretMax.isSome)) :
      Beat secretMax b i (b.raise f)
  /-- R92: the five bits stay pending. -/
  | load (idx : BitVec 5) (herr : b.err = 0) (hpad : b.padSeen = false) (hn : b.nbits.toNat < 3) :
      Beat secretMax b (.symAlpha idx) (b.load idx)
  /-- R92: a byte is appended, and it fits. -/
  | emit (idx : BitVec 5) (herr : b.err = 0) (hpad : b.padSeen = false) (hn : 3 ≤ b.nbits.toNat)
      (hroom : secretMax ≠ some b.buf.length) : Beat secretMax b (.symAlpha idx) (b.emit idx)
  /-- R96 -/
  | close (haccept : b.phase = .accept) : Beat secretMax b .endOfString b.close

/-- A symbol's body makes a beat of a symbol. -/
theorem B32.beat_unlessFaulted {secretMax : Option Nat} {b : B32} {i : Instr} {f : B32 → B32}
    (hend : i ≠ .endOfString) (hf : b.err = 0 → B32.Beat secretMax b i (f b)) :
    B32.Beat secretMax b i (b.unlessFaulted f) := by
  rcases B32.unlessFaulted_cases f b with ⟨herr, e⟩ | ⟨herr, e⟩ <;> rw [e]
  · exact .drained i hend herr
  · exact hf herr

/-- The body of SYM.ALPHA makes a beat of SYM.ALPHA (R92). -/
theorem B32.beat_push (secretMax : Option Nat) (idx : BitVec 5) (b : B32) (herr : b.err = 0) :
    B32.Beat secretMax b (.symAlpha idx) (b.push secretMax idx) := by
  rcases B32.push_cases secretMax idx b with
    ⟨-, e⟩ | ⟨hpad, hn, e⟩ | ⟨-, -, hfull, e⟩ | ⟨hpad, hn, hroom, e⟩ <;> rw [e]
  · exact .fault _ _ (by simp) herr (.inl rfl)
  · exact .load idx herr hpad hn
  · exact .fault _ _ (by simp) herr (.inr ⟨rfl, by simp [hfull]⟩)
  · exact .emit idx herr hpad hn hroom

/-- A `sym_in` instruction whose body makes a beat of B32D completes and changes nothing else. -/
theorem exists_beat_of_symBeat (i : Instr) (f : B32 → B32) (s : State)
    (hexec : exec i s = .next (s.symBeat f))
    (hf : s.b32.phase = .accept → B32.Beat s.cfg.secretMax s.b32 i (f s.b32)) :
    ∃ b, exec i s = .next (s.setB32 b) ∧ B32.Beat s.cfg.secretMax s.b32 i b := by
  rcases s.b32.phase.accept_or_done with hp | hp
  · exact ⟨f s.b32, by rw [hexec, State.symBeat_accept f s hp], hf hp⟩
  · exact ⟨s.b32, by rw [hexec, State.symBeat_done f s hp, State.setB32_self], .held i hp⟩

/-- Every `sym_in` instruction completes; it makes a beat of B32D and changes nothing else. -/
theorem exec_symIn (i : Instr) (s : State) (hi : isSymIn i = true) :
    ∃ b, exec i s = .next (s.setB32 b) ∧ B32.Beat s.cfg.secretMax s.b32 i b := by
  cases i with
  | symAlpha idx =>
    exact exists_beat_of_symBeat _ _ s rfl fun _ => B32.beat_unlessFaulted (by simp) (B32.beat_push _ idx _)
  | symWs => exact exists_beat_of_symBeat _ _ s rfl fun _ => .ws
  | symPad => exact exists_beat_of_symBeat _ _ s rfl fun _ => B32.beat_unlessFaulted (by simp) .pad
  | symInvalid =>
    exact exists_beat_of_symBeat _ _ s rfl fun _ =>
      B32.beat_unlessFaulted (by simp) fun herr => .fault _ _ (by simp) herr (.inl rfl)
  | endOfString => exact exists_beat_of_symBeat _ _ s rfl .close
  | b32Take | truReq _ _ | truTake | reset => cases hi

/-- The next state of a `sym_in` instruction, as a beat of B32D. -/
theorem beat_of_exec {i : Instr} {s t : State} (hi : isSymIn i = true) (h : exec i s = .next t) :
    ∃ b, t = s.setB32 b ∧ B32.Beat s.cfg.secretMax s.b32 i b := by
  obtain ⟨b, hb, hbeat⟩ := exec_symIn i s hi
  rw [hb] at h
  cases h
  exact ⟨b, rfl, hbeat⟩

/-- B32.TAKE in phase DONE (R97). -/
theorem exec_b32Take_done {s : State} (hdone : s.b32.phase = .done) :
    exec .b32Take s = .next ((s.setB32 B32.idle).setHost (s.host.receiveB32 s.b32.record)) := by
  simp [exec, execB32Take, State.b32Res, hdone, B32.cleared]

/-- TRU.REQ in phase ACCEPT (R121). -/
theorem exec_truReq_accept {s : State} (digits : BitVec 4) (digest : Digest) (haccept : s.tru.phase = .accept) :
    exec (.truReq digits digest) s = .next (s.setTru (Tru.request digits digest)) := by
  simp [exec, execTruReq, haccept]

/-- TRU.REQ in phase DONE (R129). -/
theorem exec_truReq_done {s : State} (digits : BitVec 4) (digest : Digest) (hdone : s.tru.phase = .done) :
    exec (.truReq digits digest) s = .next s := by
  simp [exec, execTruReq, hdone]

/-- TRU.TAKE in phase DONE (R128). -/
theorem exec_truTake_done {s : State} (hdone : s.tru.phase = .done) :
    exec .truTake s = .next ((s.setTru Tru.idle).setHost (s.host.receiveTru s.tru.record)) := by
  simp [exec, execTruTake, State.truRes, hdone, Tru.cleared]

/-- END in phase ACCEPT (R96). -/
theorem exec_endOfString_accept {s : State} (haccept : s.b32.phase = .accept) :
    exec .endOfString s = .next (s.setB32 s.b32.close) := by
  simp [exec, execEndOfString, State.symBeat_accept _ s haccept]

/-- In phase ACCEPT exactly END moves to phase DONE (R100). -/
theorem B32.Beat.phase_done_iff {secretMax : Option Nat} {b b' : B32} {i : Instr}
    (h : B32.Beat secretMax b i b') (haccept : b.phase = .accept) :
    b'.phase = .done ↔ i = .endOfString := by
  cases h with
  | held _ hdone => simp [haccept] at hdone
  | close => simp [B32.close_eq]
  | drained _ hend | fault _ _ hend => simp [haccept, hend]
  | ws | pad | load | emit => simp [haccept, B32.markPad, B32.load, B32.emit]

/-- R18 (a) holds after a beat if it did before. -/
theorem B32.Beat.accSmall {secretMax : Option Nat} {b b' : B32} {i : Instr}
    (h : B32.Beat secretMax b i b') (hacc : b.acc.toNat < 2 ^ b.nbits.toNat) :
    b'.acc.toNat < 2 ^ b'.nbits.toNat := by
  cases h with
  | held | drained | ws | pad | fault => exact hacc
  | close => rw [B32.close_eq]; exact hacc
  | load idx _ _ hn =>
    obtain ⟨ha, hb⟩ := B32.load_toNat idx b hn
    rw [ha, hb, Nat.pow_add]
    have := idx.isLt
    omega
  | emit idx _ _ hn =>
    obtain ⟨ha, hb, -⟩ := B32.emit_toNat idx b hn
    rw [ha, hb]
    exact Nat.mod_lt _ (Nat.two_pow_pos _)

/-! ## The bits B32D holds -/

/-- The bytes of the buffer followed by the pending bits, as one number (R18 (c)). -/
def B32.value (b : B32) : Nat := bigEndian b.buf * 2 ^ b.nbits.toNat + b.acc.toNat

/-- Five bits kept pending stand below the bits held before (R92). -/
theorem B32.load_value (idx : BitVec 5) (b : B32) (hacc : b.acc.toNat < 2 ^ b.nbits.toNat)
    (hn : b.nbits.toNat < 3) :
    (b.load idx).value = 32 * b.value + idx.toNat ∧ (b.load idx).bitCount = b.bitCount + 5 := by
  obtain ⟨ha, hb⟩ := B32.load_toNat idx b hn
  have hidx := idx.isLt
  have hpow : 2 ^ b.nbits.toNat ≤ 2 ^ 2 := Nat.pow_le_pow_right (by decide) (by omega)
  have hfit : (b.acc.toNat * 32 + idx.toNat) % 128 = b.acc.toNat * 32 + idx.toNat :=
    Nat.mod_eq_of_lt (by omega)
  have hbuf : (b.load idx).buf = b.buf := rfl
  constructor
  · rw [B32.value, B32.value, ha, hb, hbuf, hfit, Nat.pow_add]; ring
  · rw [B32.bitCount, B32.bitCount, hb, hbuf, Nat.add_assoc]

/-- Cutting a byte off the top moves it whole into the buffer (R92). -/
theorem B32.emit_value (idx : BitVec 5) (b : B32) (hacc : b.acc.toNat < 2 ^ b.nbits.toNat)
    (hn : 3 ≤ b.nbits.toNat) :
    (b.emit idx).value = 32 * b.value + idx.toNat ∧ (b.emit idx).bitCount = b.bitCount + 5 := by
  obtain ⟨ha, hb, x, hx, hbuf⟩ := B32.emit_toNat idx b hn
  have hpow : 2 ^ b.nbits.toNat = 8 * 2 ^ (b.nbits.toNat - 3) := by
    rw [show 8 = 2 ^ 3 from rfl, ← Nat.pow_add]; congr 1; omega
  have hidx := idx.isLt
  have htop : (b.acc.toNat * 32 + idx.toNat) / 2 ^ (b.nbits.toNat - 3) < 256 := by
    rw [Nat.div_lt_iff_lt_mul (Nat.two_pow_pos _)]; omega
  have hsplit := Nat.div_add_mod (b.acc.toNat * 32 + idx.toNat) (2 ^ (b.nbits.toNat - 3))
  rw [Nat.mod_eq_of_lt htop] at hx
  constructor
  · rw [B32.value, B32.value, ha, hb, hbuf, bigEndian_append, hx, hpow]
    linarith
  · rw [B32.bitCount, B32.bitCount, hb, hbuf, List.length_append, List.length_singleton]; omega

/-- What an alphabet character accepted without a fault does: none was recorded and no `=` was seen before it, and its five bits
are added below the others (R18 (c), R92). -/
theorem B32.Beat.of_symAlpha {secretMax : Option Nat} {b b' : B32} {idx : BitVec 5}
    (h : B32.Beat secretMax b (.symAlpha idx) b') (haccept : b.phase = .accept)
    (hacc : b.acc.toNat < 2 ^ b.nbits.toNat) (herr' : b'.err = 0) :
    b.padSeen = false ∧ b'.padSeen = false ∧ b'.nonempty = true ∧
      b'.value = 32 * b.value + idx.toNat ∧ b'.bitCount = b.bitCount + 5 := by
  cases h with
  | held _ hdone => simp [haccept] at hdone
  | drained _ _ herr => exact absurd herr' herr
  | fault _ f => cases f <;> cases herr'
  | load _ _ hpad hn => exact ⟨hpad, hpad, rfl, B32.load_value idx b hacc hn⟩
  | emit _ _ hpad hn => exact ⟨hpad, hpad, rfl, B32.emit_value idx b hacc hn⟩

/-- No beat clears a fault (R91, R96). -/
theorem B32.Beat.err_zero {secretMax : Option Nat} {b b' : B32} {i : Instr}
    (h : B32.Beat secretMax b i b') (herr' : b'.err = 0) : b.err = 0 := by
  cases h with
  | held | drained | ws => exact herr'
  | pad herr | fault _ _ _ herr | load _ herr | emit _ herr => exact herr
  | close => exact (b.close_err_zero.mp herr').1

/-! ## The invariants of the units -/

theorem B32.idle_inv (secretMax : Option Nat) : B32.idle.Inv secretMax where
  accSmall := by decide
  errLegal := .inl rfl
  bufFits := by cases secretMax <;> simp [fits, B32.idle]
  symbols _ := ⟨0, by decide, by decide⟩
  doneNonempty h := by cases h

/-- One more byte fits where the buffer is within its capacity and not full (R17, R57). -/
theorem fits_succ {secretMax : Option Nat} {n : Nat} (h : fits secretMax n) (hroom : secretMax ≠ some n) :
    fits secretMax (n + 1) := by
  cases secretMax with
  | none => trivial
  | some m =>
    have hne : m ≠ n := fun e => hroom (congrArg some e)
    simp only [fits] at h ⊢
    omega

/-- Every beat of `sym_in` keeps R16, R17 and R18 of B32D. -/
theorem B32.Beat.inv {secretMax : Option Nat} {b b' : B32} {i : Instr}
    (h : B32.Beat secretMax b i b') (hinv : b.Inv secretMax) : b'.Inv secretMax := by
  have hacc := h.accSmall hinv.accSmall
  have oneMore (herr : b.err = 0) (hcount : b'.bitCount = b.bitCount + 5) (hne : b'.nonempty = true) :
      ∃ k, b'.bitCount = 5 * k ∧ (b'.nonempty = true ↔ 0 < k) := by
    obtain ⟨k, hk, -⟩ := hinv.symbols herr
    exact ⟨k + 1, by omega, by simp [hne]⟩
  cases h with
  | held | drained | ws => exact hinv
  | pad => exact ⟨hacc, hinv.errLegal, hinv.bufFits, hinv.symbols, hinv.doneNonempty⟩
  | fault _ f _ _ hf =>
    have hcode : f.code ≠ 0 := by cases f <;> decide
    refine ⟨hacc, ?_, hinv.bufFits, fun e => absurd e hcode, fun _ e => absurd e hcode⟩
    rcases hf with rfl | ⟨rfl, hmax⟩
    · exact .inr (.inl rfl)
    · exact .inr (.inr ⟨rfl, hmax⟩)
  | load idx herr _ hn =>
    exact ⟨hacc, hinv.errLegal, hinv.bufFits,
      fun _ => oneMore herr (B32.load_value idx b hinv.accSmall hn).2 rfl, fun _ _ => rfl⟩
  | emit idx herr _ hn hroom =>
    obtain ⟨-, -, x, -, hbuf⟩ := B32.emit_toNat idx b hn
    refine ⟨hacc, hinv.errLegal, ?_,
      fun _ => oneMore herr (B32.emit_value idx b hinv.accSmall hn).2 rfl, fun _ _ => rfl⟩
    rw [hbuf, List.length_append, List.length_singleton]
    exact fits_succ hinv.bufFits hroom
  | close =>
    have hzero := b.close_err_zero
    have e := b.close_eq
    refine ⟨hacc, ?_, ?_, fun he => ?_, fun _ he => ?_⟩
    · rw [e]
      dsimp only
      split
      · exact .inr (.inl rfl)
      · exact hinv.errLegal
    · rw [e]; exact hinv.bufFits
    · obtain ⟨k, hk⟩ := hinv.symbols (hzero.mp he).1
      exact ⟨k, by rw [e]; exact hk⟩
    · rw [e]; exact (hzero.mp he).2

theorem Tru.idle_inv : Tru.idle.Inv where
  acceptIdle _ := rfl
  errLegal := .inl rfl
  ndigLegal h := by cases h
  faultNoDigits _ := rfl
  digitsShown := by decide
  restZero := by decide

/-- The characters of a code are decimal digits (R127). -/
theorem decimalChar_range (v digits j : Nat) :
    0x30 ≤ decimalChar v digits j ∧ decimalChar v digits j ≤ 0x39 := by
  have h := decimalChar_toNat v digits j
  have hlow : (0x30 : Byte).toNat = 0x30 := rfl
  have hhigh : (0x39 : Byte).toNat = 0x39 := rfl
  simp only [BitVec.le_def]
  omega

/-- A request leaves the TRU as R22 to R24 have it (R121, R122). -/
theorem Tru.request_inv (digits : BitVec 4) (digest : Digest) : (Tru.request digits digest).Inv := by
  cases hl : digitsLegal digits with
  | true =>
    rw [Tru.request_legal digits digest hl]
    have hrange := (digitsLegal_iff digits).mp hl
    refine ⟨nofun, .inl rfl, fun _ _ => hrange, nofun, fun j hj => ?_, fun j hj => ?_⟩ <;>
      dsimp only at hj ⊢ <;> rw [codeOf_getElem, trunc_getD]
    · rw [if_pos hj]
      exact decimalChar_range _ _ _
    · rw [if_neg (Nat.not_lt.mpr hj)]
  | false =>
    rw [Tru.request_illegal digits digest hl]
    exact ⟨nofun, .inr rfl, nofun, fun _ => rfl, fun _ hj => absurd hj (Nat.not_lt_zero _),
      fun j _ => codeOf_getElem [] j⟩

/-- Every request is answered: the TRU moves to phase DONE (R121). -/
theorem Tru.request_phase (digits : BitVec 4) (digest : Digest) : (Tru.request digits digest).phase = .done := by
  unfold Tru.request
  split <;> rfl

/-! ## The steps of the block, said once -/

/-- A one-bit event is the instruction it stands for (R74). -/
theorem decodeEvent_ok {v : BitVec 1} {i j : Instr} (h : decodeEvent v i = .ok j) : j = i := by
  unfold decodeEvent at h
  split at h <;> cases h
  rfl

/-- Exactly the words with bit 8 set decode to END (R62). -/
theorem decodeSym_eq_endOfString (ws : List Byte) (w : Sym9) : decodeSym ws w = .endOfString ↔ symEnd w = true := by
  unfold decodeSym
  split
  · simp [*]
  · cases lut ws (symChar w) <;> simp [*, instrOfClass]

/-- Everything a step can do: spend a turn, or accept the word `w` and let one unit or RESET act on it (R60, R91). -/
theorem step_cases {s t : State} (h : step s = .next t) :
    t = s.idleTurn ∨
    ∃ w,
      (∃ x b, w = .symIn x ∧ s.b32.phase = .accept ∧
        B32.Beat s.cfg.secretMax s.b32 (decodeSym s.cfg.wsSet x) b ∧
        t = (s.setB32 b).setHost (s.host.accepted w)) ∨
      (∃ v, w = .b32Ready v ∧ s.b32.phase = .done ∧
        t = (s.setB32 B32.idle).setHost ((s.host.accepted w).receiveB32 s.b32.record)) ∨
      (∃ q digits digest, w = .truReq q ∧ s.tru.phase = .accept ∧
        t = (s.setTru (Tru.request digits digest)).setHost (s.host.accepted w)) ∨
      (∃ v, w = .truReady v ∧ s.tru.phase = .done ∧
        t = (s.setTru Tru.idle).setHost ((s.host.accepted w).receiveTru s.tru.record)) ∨
      (∃ v, w = .rst v ∧ t = ((s.setB32 B32.idle).setTru Tru.idle).setHost (s.host.accepted w)) := by
  rcases step_eq s with ⟨-, e⟩ | ⟨i, u, hbeat, e⟩ <;> rw [e] at h
  · cases h
    exact .inl rfl
  · obtain ⟨w, -, hshake, hdecode, rfl⟩ := s.nextBeat_some i u hbeat
    refine .inr ⟨w, ?_⟩
    cases w with
    | symIn x =>
      cases hdecode
      obtain ⟨b, rfl, hb⟩ := beat_of_exec (isSymIn_decodeSym _ x) h
      exact .inl ⟨x, b, rfl, by simpa [State.handshake, State.symInReady] using hshake, hb, rfl⟩
    | b32Ready v =>
      have hdone : s.b32.phase = .done := by simpa [State.handshake, State.b32ResValid] using hshake
      cases decodeEvent_ok hdecode
      rw [exec_b32Take_done (by exact hdone)] at h
      cases h
      exact .inr (.inl ⟨v, rfl, hdone, rfl⟩)
    | truReq q =>
      have haccept : s.tru.phase = .accept := by simpa [State.handshake, State.truReqReady] using hshake
      cases hdecode
      rw [decodeReq, exec_truReq_accept _ _ (by exact haccept)] at h
      cases h
      exact .inr (.inr (.inl ⟨q, _, _, rfl, haccept, rfl⟩))
    | truReady v =>
      have hdone : s.tru.phase = .done := by simpa [State.handshake, State.truResValid] using hshake
      cases decodeEvent_ok hdecode
      rw [exec_truTake_done (by exact hdone)] at h
      cases h
      exact .inr (.inr (.inr (.inl ⟨v, rfl, hdone, rfl⟩)))
    | rst v =>
      cases decodeEvent_ok hdecode
      cases h
      exact .inr (.inr (.inr (.inr ⟨v, rfl, rfl⟩)))

/-- No step changes the parameters (R10). -/
theorem step_cfg {s t : State} (h : step s = .next t) : t.cfg = s.cfg := by
  rcases step_cases h with rfl | ⟨w, ⟨_, _, -, -, -, rfl⟩ | ⟨_, -, -, rfl⟩ | ⟨_, _, _, -, -, rfl⟩ | ⟨_, -, -, rfl⟩ |
    ⟨_, -, rfl⟩⟩ <;> rfl

/-- Every step keeps the invariant of both units. -/
theorem step_inv {s t : State} (h : step s = .next t) (hinv : s.Inv) : t.Inv := by
  rcases step_cases h with rfl | ⟨w, ⟨_, b, -, -, hbeat, rfl⟩ | ⟨_, -, -, rfl⟩ | ⟨_, digits, digest, -, -, rfl⟩ |
    ⟨_, -, -, rfl⟩ | ⟨_, -, rfl⟩⟩
  · exact ⟨hinv.b32, hinv.tru⟩
  · exact ⟨hbeat.inv hinv.b32, hinv.tru⟩
  · exact ⟨B32.idle_inv _, hinv.tru⟩
  · exact ⟨hinv.b32, Tru.request_inv digits digest⟩
  · exact ⟨hinv.b32, Tru.idle_inv⟩
  · exact ⟨B32.idle_inv _, Tru.idle_inv⟩

/-- Every step keeps the books of the host in order (R194): what is accepted opens a string or a request, END alone ends the
string, and a TAKE or RESET closes what its unit forgets. -/
theorem step_booked {s t : State} (h : step s = .next t) (hbooked : s.Booked) : t.Booked := by
  obtain ⟨hbegun, hended, hrequested⟩ := hbooked
  rcases step_cases h with rfl | ⟨w, ⟨x, b, rfl, haccept, hbeat, rfl⟩ | ⟨v, rfl, hdone, rfl⟩ |
    ⟨q, digits, digest, rfl, haccept, rfl⟩ | ⟨v, rfl, hdone, rfl⟩ | ⟨v, rfl, rfl⟩⟩
  · exact ⟨hbegun, hended, hrequested⟩
  · have hopen : (s.host.accepted (.symIn x)).symOpen = s.host.symOpen ++ [stringItem x] := rfl
    refine ⟨fun e => ?_, ?_, hrequested⟩
    · simp [hopen] at e
    · simp only [State.setHost_b32, State.setB32_b32, State.setHost_host, hopen, List.getLast?_concat, Option.some_inj]
      rw [hbeat.phase_done_iff haccept, decodeSym_eq_endOfString, stringItem_eq_close]
  · exact ⟨fun _ => rfl, by simp [HostEnd.accepted, B32.idle], hrequested⟩
  · exact ⟨hbegun, hended, by simp [HostEnd.accepted, Tru.request_phase]⟩
  · exact ⟨hbegun, hended, by simp [HostEnd.accepted, Tru.idle]⟩
  · exact ⟨fun _ => rfl, by simp [HostEnd.accepted, B32.idle], by simp [HostEnd.accepted, Tru.idle]⟩

/-- Settles O16, by the cases of a step: each unit's own operations keep its invariant, and the handshake keeps the books. -/
theorem stepKeepsInvariant : Obligations.StepKeepsInvariant :=
  fun _ _ h => ⟨step_inv h, step_booked h⟩

/-- Settles O18. -/
theorem stepKeepsConfiguration : Obligations.StepKeepsConfiguration :=
  fun _ _ => step_cfg

/-! ## The records handed over -/

/-- Every record of B32D is sound (R20). -/
theorem B32.record_sound (b : B32) : b.record.Sound := by
  by_cases herr : b.err = 0
  · rw [B32.record_of_success b herr]
    exact ⟨rfl, fun h => absurd rfl h, by simp⟩
  · rw [B32.record_of_fault b herr]
    exact ⟨rfl, fun _ => rfl, iff_of_false (by simp) fun h => herr h.1⟩

/-- The invariant bounds the digits a TRU in phase DONE shows (R23). -/
theorem Tru.Inv.ndig_le {t : Tru} (h : t.Inv) (hdone : t.phase = .done) : t.ndig.toNat ≤ 10 := by
  rcases h.errLegal with herr | herr
  · exact (h.ndigLegal hdone herr).2
  · simp [h.faultNoDigits herr]

/-- The record of a TRU in phase DONE is sound (R26). -/
theorem Tru.record_sound {t : Tru} (h : t.Inv) (hdone : t.phase = .done) : t.record.Sound := by
  have hle := h.ndig_le hdone
  refine ⟨?_, fun c hc => ?_, fun herr => ?_⟩
  · simp [Tru.record, hle]
  · obtain ⟨j, hj, rfl⟩ := List.mem_take_iff_getElem.mp hc
    have hlt : j < 10 := by simp at hj; omega
    exact h.digitsShown ⟨j, hlt⟩ (by simp at hj; exact hj.1)
  · have hfault := h.errLegal.resolve_left herr
    simp [Tru.record, h.faultNoDigits hfault]

/-- Settles O17: only the two TAKEs hand a record over, and each record is sound. -/
theorem stepDeliversSoundRecords : Obligations.StepDeliversSoundRecords := by
  intro s t hinv hb32 htru h
  rcases step_cases h with rfl | ⟨w, ⟨_, b, -, -, -, rfl⟩ | ⟨_, -, -, rfl⟩ | ⟨_, _, _, -, -, rfl⟩ |
    ⟨_, -, hdone, rfl⟩ | ⟨_, -, rfl⟩⟩
  · exact ⟨hb32, htru⟩
  · simpa using ⟨hb32, htru⟩
  · refine ⟨?_, by simpa using htru⟩
    simpa [or_imp, forall_and, B32.record_sound] using hb32
  · simpa using ⟨hb32, htru⟩
  · refine ⟨by simpa using hb32, ?_⟩
    simpa [or_imp, forall_and, Tru.record_sound hinv.tru hdone] using htru
  · simpa using ⟨hb32, htru⟩

/-- Settles O29. -/
theorem decoderRecordFields : Obligations.DecoderRecordFields := by
  intro s
  refine ⟨by simp [State.b32ResValid], fun h => by simp [State.b32Res, h], fun h => ?_⟩
  simp only [State.b32Res, h, Option.some_inj]
  by_cases herr : s.b32.err = 0
  · rw [B32.record_of_success _ herr]
    cases hbuf : s.b32.buf <;> simp [herr]
  · rw [B32.record_of_fault _ herr, if_neg herr, if_neg herr, decide_eq_false fun h => herr h.1]

/-! ## The characters packed into `code_str` -/

/-- Shifting a byte in below moves every other byte up by one place (R26). -/
theorem extract_shiftLeft_or (x : BitVec 80) (c : Byte) (k : Nat) (hk : k + 16 ≤ 80) :
    (x <<< 8 ||| c.setWidth 80).extractLsb' (k + 8) 8 = x.extractLsb' k 8 := by
  ext i hi
  simp [show k + 8 + i < 80 by omega, show ¬ k + 8 + i < 8 by omega, show k + 8 + i - 8 = k + i by omega,
    show 8 ≤ k + 8 + i by omega, show k + i < 80 by omega]

/-- The byte shifted in last stands at the bottom (R26). -/
theorem extract_shiftLeft_or_zero (x : BitVec 80) (c : Byte) :
    (x <<< 8 ||| c.setWidth 80).extractLsb' 0 8 = c := by
  ext i hi
  simp [hi, show i < 80 by omega]

/-- Of at most ten bytes packed one after another, byte `j` stands `8 * (length - 1 - j)` bits above the bottom (R26). -/
theorem extract_packed (l : List Byte) (hlen : l.length ≤ 10) (j : Nat) (hj : j < l.length) :
    (l.foldl (fun (acc : BitVec 80) (c : Byte) => acc <<< 8 ||| c.setWidth 80) 0).extractLsb' (8 * (l.length - 1 - j)) 8 =
      l[j] := by
  induction l using List.reverseRecOn with
  | nil => cases hj
  | append_singleton l c ih =>
    simp only [List.length_append, List.length_singleton] at hlen hj ⊢
    rw [List.foldl_append, List.foldl_cons, List.foldl_nil]
    by_cases hlast : j = l.length
    · subst hlast
      simpa using extract_shiftLeft_or_zero _ c
    · have hjl : j < l.length := by omega
      rw [show 8 * (l.length + 1 - 1 - j) = 8 * (l.length - 1 - j) + 8 by omega,
        extract_shiftLeft_or _ c _ (by omega), ih (by omega) hjl, List.getElem_append_left hjl]

/-- Settles O48. -/
theorem truncatorRecordFields : Obligations.TruncatorRecordFields := by
  intro s
  refine ⟨by simp [State.truResValid], fun h => by simp [State.truRes, h], fun h => ?_, fun j => ?_⟩
  · exact ⟨s.tru.record, by simp [State.truRes, h], rfl, rfl, rfl⟩
  · have hplace := extract_packed s.tru.code.toList (by simp) j.val (by simp)
    rw [show 72 - 8 * j.val = 8 * (s.tru.code.toList.length - 1 - j.val) by simp; omega]
    simpa [Tru.codeStr] using hplace

/-! ## Reset -/

/-- Settles O8. -/
theorem resetLeavesBothUnitsIdle : Obligations.ResetLeavesBothUnitsIdle := by
  refine ⟨by decide, fun s => ⟨(s.setB32 B32.idle).setTru Tru.idle, rfl, ?_, rfl, rfl⟩⟩
  simp [B32.idle, Tru.idle, State.b32ResValid, State.truResValid, State.symInReady, State.truReqReady]

/-- Settles O15. -/
theorem resetMeetsInvariant : Obligations.ResetMeetsInvariant :=
  ⟨⟨B32.idle_inv _, Tru.idle_inv⟩, ⟨fun _ => rfl, by decide, by decide⟩⟩

/-! ## What an instruction does to one unit alone -/

/-- What one unit's instruction leaves: B32D becomes `b`, and the host receives the records `rs`. -/
def State.handB32 (s : State) (b : B32) (rs : List B32Res) : State :=
  (s.setB32 b).setHost { s.host with b32Taken := s.host.b32Taken ++ rs }

/-- What one unit's instruction leaves: the TRU becomes `c`, and the host receives the records `rs`. -/
def State.handTru (s : State) (c : Tru) (rs : List TruRes) : State :=
  (s.setTru c).setHost { s.host with truTaken := s.host.truTaken ++ rs }

theorem State.handB32_nil (s : State) (b : B32) : s.handB32 b [] = s.setB32 b := by
  simp [State.handB32, State.setB32, State.setHost]

theorem State.handTru_nil (s : State) (c : Tru) : s.handTru c [] = s.setTru c := by
  simp [State.handTru, State.setTru, State.setHost]

/-- What the two units leave does not depend on which acts first (R53). -/
theorem State.handB32_handTru (s : State) (b : B32) (rs : List B32Res) (c : Tru) (rs' : List TruRes) :
    (s.handB32 b rs).handTru c rs' = (s.handTru c rs').handB32 b rs := rfl

/-- An instruction of B32D does the same in every state with the same B32D and parameters (R10, R53). -/
theorem exec_onB32 {i : Instr} {s t : State} (hi : onB32 i = true) (h : exec i s = .next t) :
    ∃ b rs, t = s.handB32 b rs ∧
      ∀ s' : State, s'.b32 = s.b32 → s'.cfg = s.cfg → exec i s' = .next (s'.handB32 b rs) := by
  rcases exec_cases i s t h with ⟨f, -, rfl, hf⟩ | ⟨rfl, hdone, rfl⟩ | ⟨_, _, rfl, -⟩ | ⟨rfl, -⟩ | ⟨rfl, -⟩
  · have beat (s' : State) (hb : s'.b32 = s.b32) : s'.symBeat f = s'.handB32 (s.symBeat f).b32 [] := by
      rw [State.handB32_nil]
      rcases s.b32.phase.accept_or_done with hp | hp
      · rw [State.symBeat_accept f s hp, State.symBeat_accept f s' (by rw [hb]; exact hp), hb]; rfl
      · rw [State.symBeat_done f s hp, State.symBeat_done f s' (by rw [hb]; exact hp), ← hb]; rfl
    exact ⟨(s.symBeat f).b32, [], beat s rfl, fun s' hb hc => by rw [hf s' hc, beat s' hb]⟩
  · refine ⟨B32.idle, [s.b32.record], rfl, fun s' hb _ => ?_⟩
    rw [exec_b32Take_done (by rw [hb]; exact hdone), hb]
    rfl
  all_goals cases hi

/-- A `sym_in` instruction is none of the TRU. -/
theorem onTru_of_isSymIn {i : Instr} (h : isSymIn i = true) : onTru i = false := by
  cases i <;> simp [isSymIn, onTru] at h ⊢

/-- An instruction of the TRU does the same in every state with the same TRU (R10, R53). -/
theorem exec_onTru {i : Instr} {s t : State} (hi : onTru i = true) (h : exec i s = .next t) :
    ∃ c rs, t = s.handTru c rs ∧ ∀ s' : State, s'.tru = s.tru → exec i s' = .next (s'.handTru c rs) := by
  rcases exec_cases i s t h with ⟨f, hsym, -⟩ | ⟨rfl, -⟩ | ⟨digits, digest, rfl, ⟨hdone, rfl⟩ | ⟨haccept, rfl⟩⟩ |
    ⟨rfl, hdone, rfl⟩ | ⟨rfl, -⟩
  · simp [onTru_of_isSymIn hsym] at hi
  · cases hi
  · refine ⟨t.tru, [], (t.handTru_nil _).symm, fun s' hc => ?_⟩
    rw [exec_truReq_done _ _ (by rw [hc]; exact hdone), State.handTru_nil, ← hc]
    rfl
  · refine ⟨Tru.request digits digest, [], (s.handTru_nil _).symm, fun s' hc => ?_⟩
    rw [exec_truReq_accept _ _ (by rw [hc]; exact haccept), State.handTru_nil]
  · refine ⟨Tru.idle, [s.tru.record], rfl, fun s' hc => ?_⟩
    rw [exec_truTake_done (by rw [hc]; exact hdone), hc]
    rfl
  · cases hi

/-- Settles O21: each unit's instruction does in the other order what it did in this one. -/
theorem unitsCommute : Obligations.UnitsCommute := by
  intro i j s s1 s2 hi hj h1 h2
  obtain ⟨b, rs, rfl, hb⟩ := exec_onB32 hi h1
  obtain ⟨c, rs', rfl, hc⟩ := exec_onTru hj h2
  exact ⟨s.handTru c rs', hc s rfl, by rw [State.handB32_handTru]; exact hb _ rfl rfl⟩

/-- Settles O22. -/
theorem unitsSeeOnlyTheirOwnState : Obligations.UnitsSeeOnlyTheirOwnState := by
  constructor
  · intro i s s' t hi hb hcfg h
    obtain ⟨b, rs, rfl, hexec⟩ := exec_onB32 hi h
    exact ⟨_, hexec s' hb hcfg, rfl, rs, rfl, rfl⟩
  · intro i s s' t hi hc h
    obtain ⟨c, rs, rfl, hexec⟩ := exec_onTru hi h
    exact ⟨_, hexec s' hc, rfl, rs, rfl, rfl⟩

/-! ## Inside one transaction -/

/-- What an instruction other than B32.TAKE and RESET does to B32D: it is a beat of `sym_in`, or one of the TRU's, which leaves
B32D as it is. -/
theorem exec_b32_cases {i : Instr} {s t : State} (h : exec i s = .next t) (htake : i ≠ .b32Take) (hreset : i ≠ .reset) :
    (isSymIn i = true ∧ B32.Beat s.cfg.secretMax s.b32 i t.b32) ∨ (isSymIn i = false ∧ t.b32 = s.b32) := by
  cases hsym : isSymIn i with
  | true =>
    obtain ⟨b, rfl, hbeat⟩ := beat_of_exec hsym h
    exact .inl ⟨rfl, hbeat⟩
  | false =>
    refine .inr ⟨rfl, ?_⟩
    rcases exec_cases i s t h with ⟨_, hsym', -⟩ | ⟨e, -⟩ | ⟨_, _, -, ⟨-, rfl⟩ | ⟨-, rfl⟩⟩ | ⟨-, -, rfl⟩ | ⟨e, -⟩
    · simp [hsym] at hsym'
    · exact absurd e htake
    · rfl
    · rfl
    · rfl
    · exact absurd e hreset

/-- With a fault recorded only END acts, and it only moves to phase DONE (R91, R96). -/
theorem B32.Beat.of_fault {secretMax : Option Nat} {b b' : B32} {i : Instr}
    (h : B32.Beat secretMax b i b') (hfault : b.err ≠ 0) :
    (i ≠ .endOfString ∧ b' = b) ∨ (i = .endOfString ∧ b' = { b with phase := .done }) := by
  cases h with
  | held _ hdone =>
    by_cases hend : i = .endOfString
    · exact .inr ⟨hend, by rw [← hdone]⟩
    · exact .inl ⟨hend, rfl⟩
  | drained _ hend => exact .inl ⟨hend, rfl⟩
  | ws => exact .inl ⟨nofun, rfl⟩
  | pad herr | fault _ _ _ herr | load _ herr | emit _ herr => exact absurd herr hfault
  | close => exact .inr ⟨rfl, by rw [B32.close_eq, if_neg fun e => hfault e.1]⟩

/-- Settles O19. -/
theorem firstFaultSticks : Obligations.FirstFaultSticks := by
  intro i s t hfault h htake hreset
  rcases exec_b32_cases h htake hreset with ⟨-, hbeat⟩ | ⟨hsym, e⟩
  · rcases hbeat.of_fault hfault with ⟨hend, e⟩ | ⟨hend, e⟩
    · exact ⟨by rw [e], fun _ => e, fun hend' => absurd hend' hend⟩
    · exact ⟨by rw [e], fun hend' => absurd hend hend', fun _ => e⟩
  · exact ⟨by rw [e], fun _ => e, fun hend => by simp [hend, isSymIn] at hsym⟩

/-- Only SYM.ALPHA appends to the buffer, and then one byte (R92). -/
theorem B32.Beat.buf {secretMax : Option Nat} {b b' : B32} {i : Instr} (h : B32.Beat secretMax b i b') :
    b'.buf = b.buf ∨ ∃ idx x, i = .symAlpha idx ∧ b'.buf = b.buf ++ [x] := by
  cases h with
  | emit idx => exact .inr ⟨idx, _, rfl, rfl⟩
  | close => exact .inl (by rw [B32.close_eq])
  | held | drained | ws | pad | fault | load => exact .inl rfl

/-- Settles O20. -/
theorem bufferIsAppendOnly : Obligations.BufferIsAppendOnly := by
  intro i s t h htake hreset
  have hbuf : t.b32.buf = s.b32.buf ∨ ∃ idx x, i = .symAlpha idx ∧ t.b32.buf = s.b32.buf ++ [x] := by
    rcases exec_b32_cases h htake hreset with ⟨-, hbeat⟩ | ⟨-, e⟩
    · exact hbeat.buf
    · exact .inl (by rw [e])
  rcases hbuf with e | ⟨idx, x, hi, e⟩
  · exact ⟨.inl e, fun hne => absurd e hne⟩
  · exact ⟨.inr ⟨x, e⟩, fun _ => ⟨idx, hi⟩⟩

/-- Settles O24. -/
theorem slicerLosesNoBit : Obligations.SlicerLosesNoBit := by
  intro s t idx hacc haccept h _ herr'
  obtain ⟨b, rfl, hbeat⟩ := beat_of_exec rfl h
  obtain ⟨-, -, -, hvalue, hcount⟩ := hbeat.of_symAlpha haccept hacc herr'
  exact ⟨hvalue, hcount⟩

/-! ## A whole string -/

/-- A class selects the instruction of an index only if it is the class of that index (R62). -/
theorem instrOfClass_eq_symAlpha (k : CharClass) (idx : BitVec 5) :
    instrOfClass k = .symAlpha idx ↔ k = .alpha idx := by
  cases k <;> simp [instrOfClass]

/-- A character selects a `sym_in` instruction that is not END (R62). -/
theorem instrOfClass_symbol (k : CharClass) : isSymIn (instrOfClass k) = true ∧ instrOfClass k ≠ .endOfString := by
  cases k <;> simp [instrOfClass, isSymIn]

/-- An index is a character's exactly if the character is of that index's class (R90). -/
theorem alphaIdx_eq_some (ws : List Byte) (c : Byte) (idx : BitVec 5) :
    alphaIdx ws c = some idx ↔ lut ws c = .alpha idx := by
  unfold alphaIdx
  cases lut ws c <;> simp

/-- A character that is none of the alphabet's, accepted without a fault, at most sets `pad_seen`, and `=` does so
(R93, R94, R95). -/
theorem B32.Beat.of_not_alpha {secretMax : Option Nat} {b b' : B32} {i : Instr} (h : B32.Beat secretMax b i b')
    (haccept : b.phase = .accept) (hi : ∀ idx, i ≠ .symAlpha idx) (hend : i ≠ .endOfString) (herr' : b'.err = 0) :
    (i ≠ .symPad ∧ b' = b) ∨ (i = .symPad ∧ b' = b.markPad) := by
  cases h with
  | held _ hdone => simp [haccept] at hdone
  | drained _ _ herr => exact absurd herr' herr
  | ws => exact .inl ⟨nofun, rfl⟩
  | pad => exact .inr ⟨rfl, rfl⟩
  | fault _ f => cases f <;> cases herr'
  | load idx | emit idx => exact absurd rfl (hi idx)
  | close => exact absurd rfl hend

/-- What R18 (b), (c) and (d) say of a fault-free B32D that has accepted the string `str`. -/
structure B32.Reads (ws str : List Byte) (b : B32) : Prop where
  bits : b.bitCount = 5 * (str.filterMap (alphaIdx ws)).length
  nonempty_iff : b.nonempty = true ↔ 0 < (str.filterMap (alphaIdx ws)).length
  value_eq : b.value = bitString (str.filterMap (alphaIdx ws))
  padUnseen : b.padSeen = false → ∀ c ∈ str, lut ws c ≠ .pad
  padLast : str.Pairwise fun c d => lut ws c = .pad → isAlpha ws d = false

theorem B32.idle_reads (ws : List Byte) : B32.idle.Reads ws [] where
  bits := rfl
  nonempty_iff := by simp [B32.idle]
  value_eq := rfl
  padUnseen _ _ h := by cases h
  padLast := .nil

/-- One more character accepted without a fault. -/
theorem B32.Reads.concat {ws str : List Byte} {b b' : B32} {secretMax : Option Nat} {c : Byte}
    (h : b.Reads ws str) (hbeat : B32.Beat secretMax b (instrOfClass (lut ws c)) b') (haccept : b.phase = .accept)
    (hacc : b.acc.toNat < 2 ^ b.nbits.toNat) (herr' : b'.err = 0) : b'.Reads ws (str ++ [c]) := by
  cases hc : alphaIdx ws c with
  | some idx =>
    have hlut := (alphaIdx_eq_some ws c idx).mp hc
    have hix : (str ++ [c]).filterMap (alphaIdx ws) = str.filterMap (alphaIdx ws) ++ [idx] := by simp [hc]
    rw [(instrOfClass_eq_symAlpha _ idx).mpr hlut] at hbeat
    obtain ⟨hpad, hpad', hne, hvalue, hcount⟩ := hbeat.of_symAlpha haccept hacc herr'
    have hnone := h.padUnseen hpad
    refine ⟨?_, ?_, ?_, ?_, ?_⟩
    · rw [hcount, h.bits, hix, List.length_append, List.length_singleton]; ring
    · simp [hne, hix]
    · rw [hvalue, h.value_eq, hix, bitString_append]
    · intro _ d hd
      rcases List.mem_append.mp hd with hd | hd
      · exact hnone d hd
      · rw [List.mem_singleton.mp hd, hlut]; exact nofun
    · refine List.pairwise_append.mpr ⟨h.padLast, List.pairwise_singleton _ _, fun a ha _ _ e => ?_⟩
      exact absurd e (hnone a ha)
  | none =>
    have hno : isAlpha ws c = false := by simp [isAlpha, hc]
    have hix : (str ++ [c]).filterMap (alphaIdx ws) = str.filterMap (alphaIdx ws) := by simp [hc]
    have hnot (idx : BitVec 5) : instrOfClass (lut ws c) ≠ .symAlpha idx := by
      rw [ne_eq, instrOfClass_eq_symAlpha, ← alphaIdx_eq_some, hc]; exact nofun
    have hlast : (str ++ [c]).Pairwise fun c d => lut ws c = .pad → isAlpha ws d = false :=
      List.pairwise_append.mpr ⟨h.padLast, List.pairwise_singleton _ _, fun _ _ d hd _ => by
        rw [List.mem_singleton.mp hd]; exact hno⟩
    rcases hbeat.of_not_alpha haccept hnot (instrOfClass_symbol _).2 herr' with ⟨hpad, rfl⟩ | ⟨-, rfl⟩
    · refine ⟨hix ▸ h.bits, hix ▸ h.nonempty_iff, hix ▸ h.value_eq, fun hseen d hd => ?_, hlast⟩
      rcases List.mem_append.mp hd with hd | hd
      · exact h.padUnseen hseen d hd
      · rw [List.mem_singleton.mp hd]
        exact fun e => hpad (by rw [e]; rfl)
    · exact ⟨hix ▸ h.bits, hix ▸ h.nonempty_iff, hix ▸ h.value_eq, nofun, hlast⟩

/-- One more character is one more symbol (R41). -/
theorem symbolsOf_concat (ws str : List Byte) (c : Byte) :
    symbolsOf ws (str ++ [c]) = symbolsOf ws str ++ [instrOfClass (lut ws c)] := by
  simp [symbolsOf]

/-- The symbols of any string are all accepted from the idle state, and change B32D alone; R18 holds after them. -/
theorem execAll_symbolsOf (s : State) (str : List Byte) (hidle : s.b32 = B32.idle) :
    ∃ b, execAll (symbolsOf s.cfg.wsSet str) s = .next (s.setB32 b) ∧ b.phase = .accept ∧
      b.acc.toNat < 2 ^ b.nbits.toNat ∧ (b.err = 0 → b.Reads s.cfg.wsSet str) := by
  induction str using List.reverseRecOn with
  | nil =>
    exact ⟨B32.idle, by rw [← hidle]; rfl, rfl, by decide, fun _ => B32.idle_reads _⟩
  | append_singleton str c ih =>
    obtain ⟨b, hexec, haccept, hacc, hreads⟩ := ih
    obtain ⟨hsym, hend⟩ := instrOfClass_symbol (lut s.cfg.wsSet c)
    obtain ⟨b', hexec', hbeat⟩ := exec_symIn _ (s.setB32 b) hsym
    have hphase : b'.phase = .accept :=
      b'.phase.accept_or_done.resolve_right fun hdone => hend ((hbeat.phase_done_iff haccept).mp hdone)
    refine ⟨b', ?_, hphase, hbeat.accSmall hacc, fun herr' =>
      (hreads (hbeat.err_zero herr')).concat hbeat haccept hacc herr'⟩
    rw [symbolsOf_concat, execAll_append _ _ _ _ hexec, execAll, hexec']
    rfl

/-- END keeps what R18 says of the string (R96). -/
theorem B32.Reads.close {ws str : List Byte} {b : B32} (h : b.Reads ws str) : b.close.Reads ws str := by
  rw [B32.close_eq]
  exact ⟨h.bits, h.nonempty_iff, h.value_eq, h.padUnseen, h.padLast⟩

/-- R18 (b) in numbers: the whole bytes and the rest of the bits. -/
theorem B32.Reads.length_and_rest {ws str : List Byte} {b : B32} (h : b.Reads ws str) :
    b.buf.length = 5 * (str.filterMap (alphaIdx ws)).length / 8 ∧
    b.nbits.toNat = 5 * (str.filterMap (alphaIdx ws)).length % 8 := by
  have hbits := h.bits
  have hsmall := b.nbits.isLt
  rw [B32.bitCount] at hbits
  omega

/-- R18 (d): no alphabet character stands anywhere behind a `=`. -/
theorem B32.Reads.not_alpha_after_pad {ws str p q : List Byte} {b : B32} {c d : Byte} (h : b.Reads ws str)
    (hstr : str = p ++ c :: q) (hc : lut ws c = .pad) (hd : d ∈ q) : isAlpha ws d = false := by
  have hlast := h.padLast
  rw [hstr] at hlast
  obtain ⟨-, htail, -⟩ := List.pairwise_append.mp hlast
  exact List.rel_of_pairwise_cons htail hd hc

/-- Settles O33, by induction on the string, one character added at its end. -/
theorem stringStateInvariants : Obligations.StringStateInvariants := by
  intro s str hidle ws ix holds
  obtain ⟨b, hexec, haccept, hacc, hreads⟩ := execAll_symbolsOf s str hidle
  have holds_of (b : B32) (hacc : b.acc.toNat < 2 ^ b.nbits.toNat) (hreads : b.err = 0 → b.Reads ws str) : holds b :=
    ⟨hacc, fun herr => ⟨(hreads herr).length_and_rest.1, (hreads herr).length_and_rest.2, (hreads herr).nonempty_iff,
      (hreads herr).value_eq⟩, fun _ herr _ _ _ hstr hc _ hd => (hreads herr).not_alpha_after_pad hstr hc hd⟩
  have hbeat : B32.Beat s.cfg.secretMax b .endOfString b.close := .close haccept
  refine ⟨s.setB32 b, s.setB32 b.close, hexec, ?_, holds_of b hacc hreads,
    holds_of b.close (hbeat.accSmall hacc) fun herr => (hreads (hbeat.err_zero herr)).close,
    (hbeat.phase_done_iff haccept).mpr rfl, fun herr => ?_⟩
  · exact exec_endOfString_accept (s := s.setB32 b) haccept
  · rw [State.setB32_b32, B32.close_eq]
    exact (b.close_err_zero.mp herr).2

end Sys2Proof.Machine

namespace Sys2Proof.Machine

/-! # What an instruction does to one unit, and what it leaves

## Lifting a property of B32D through a beat -/

/-- What holds of B32D as it is and after the body of a beat holds after the beat (R91, R99). -/
theorem State.symBeat_b32_of (P : B32 → Prop) (f : B32 → B32) (s : State) (hsame : P s.b32) (hbody : P (f s.b32)) :
    P (s.symBeat f).b32 := by
  rcases s.b32.phase.accept_or_done with hp | hp
  · rw [State.symBeat_accept f s hp]; exact hbody
  · rw [State.symBeat_done f s hp]; exact hsame

/-- What holds of B32D as it is and after a symbol's body holds after the symbol, drained or not (R91). -/
theorem B32.unlessFaulted_of (P : B32 → Prop) (f : B32 → B32) (b : B32) (hsame : P b) (hbody : P (f b)) :
    P (b.unlessFaulted f) := by
  rcases B32.unlessFaulted_cases f b with ⟨-, e⟩ | ⟨-, e⟩ <;> rw [e]
  · exact hsame
  · exact hbody

/-- What holds of B32D as it is and after a symbol's body holds after the symbol, in every phase (R91, R99). -/
theorem State.symBeat_unlessFaulted_of (P : B32 → Prop) (f : B32 → B32) (s : State) (hsame : P s.b32)
    (hbody : P (f s.b32)) : P (s.symBeat (B32.unlessFaulted f)).b32 :=
  State.symBeat_b32_of P _ s hsame (B32.unlessFaulted_of P f s.b32 hsame hbody)

/-! ## SYM.ALPHA in phase ACCEPT -/

/-- A character's word selects SYM.ALPHA of an index exactly if the character is of that index's class (R62, R64). -/
theorem decode_symWord_eq_symAlpha (ws : List Byte) (c : Byte) (idx : BitVec 5) :
    decode ws (.symIn (symWord c)) = .ok (.symAlpha idx) ↔ lut ws c = .alpha idx := by
  rw [decode_symWord, Except.ok.injEq, instrOfClass_eq_symAlpha]

/-- SYM.ALPHA in phase ACCEPT (R91, R92). -/
theorem exec_symAlpha_accept {s : State} (idx : BitVec 5) (haccept : s.b32.phase = .accept) :
    exec (.symAlpha idx) s = .next (s.setB32 (s.b32.unlessFaulted (B32.push s.cfg.secretMax idx))) := by
  simp [exec, execSymAlpha, State.symBeat_accept _ s haccept]

/-- SYM.ALPHA leaves the phase and `pad_seen`, drained or not (R91, R92). -/
theorem B32.unlessFaulted_push_frame (secretMax : Option Nat) (idx : BitVec 5) (b : B32) :
    (b.unlessFaulted (B32.push secretMax idx)).phase = b.phase ∧
    (b.unlessFaulted (B32.push secretMax idx)).padSeen = b.padSeen :=
  B32.unlessFaulted_of (fun b' => b'.phase = b.phase ∧ b'.padSeen = b.padSeen) _ b ⟨rfl, rfl⟩
    (B32.push_frame secretMax idx b)

/-- Settles O23, by the branches of the body of SYM.ALPHA. -/
theorem symAlphaPushesFiveBits : Obligations.SymAlphaPushesFiveBits := by
  refine ⟨decode_symWord_eq_symAlpha, fun s idx haccept => ?_⟩
  obtain ⟨hphase, hpadSeen⟩ := B32.unlessFaulted_push_frame s.cfg.secretMax idx s.b32
  refine ⟨_, exec_symAlpha_accept idx haccept, rfl, rfl, rfl, hphase.trans haccept, hpadSeen, ?_⟩
  intro x n
  rw [State.setB32_b32]
  rcases B32.unlessFaulted_cases (B32.push s.cfg.secretMax idx) s.b32 with ⟨herr, e⟩ | ⟨herr, e⟩ <;> rw [e]
  · rw [if_pos herr]
  · rw [if_neg (not_not.mpr herr)]
    rcases B32.push_cases s.cfg.secretMax idx s.b32 with
      ⟨hpad, e⟩ | ⟨hpad, hn, e⟩ | ⟨hpad, hn, hfull, e⟩ | ⟨hpad, hn, hroom, e⟩ <;> rw [e, hpad]
    · rw [if_pos rfl]; rfl
    · obtain ⟨hacc, hnbits⟩ := B32.load_toNat idx s.b32 hn
      rw [if_neg Bool.false_ne_true, if_pos (show n < 8 by omega)]
      exact ⟨hacc, hnbits, rfl, herr, rfl⟩
    · rw [if_neg Bool.false_ne_true, if_neg (show ¬ n < 8 by omega), if_pos hfull]; rfl
    · obtain ⟨hacc, hnbits, byte, hbyte, hbuf⟩ := B32.emit_toNat idx s.b32 hn
      rw [if_neg Bool.false_ne_true, if_neg (show ¬ n < 8 by omega), if_neg hroom,
        show n - 8 = s.b32.nbits.toNat - 3 by omega]
      exact ⟨hacc, hnbits, rfl, herr, byte, hbyte, hbuf⟩

/-! ## Frames of the two units -/

/-- Settles O32: the unit's instructions change B32D and the records taken, and each one's own body changes no other register. -/
theorem decoderFrame : Obligations.DecoderFrame := by
  intro i s t hi h
  have hrest : t.tru = s.tru ∧ t.cfg = s.cfg ∧ t.host = { s.host with b32Taken := t.host.b32Taken } := by
    obtain ⟨b, rs, rfl, -⟩ := exec_onB32 hi h
    exact ⟨rfl, rfl, rfl⟩
  obtain ⟨htru, hcfg, hhost⟩ := hrest
  refine ⟨htru, hcfg, hhost, fun hsym => ?_, ?_, ?_, ?_, ?_, ?_⟩
  · obtain ⟨b, rfl, -⟩ := beat_of_exec hsym h
    rfl
  · rintro idx rfl
    cases h
    exact State.symBeat_b32_of (fun b => b.phase = s.b32.phase ∧ b.padSeen = s.b32.padSeen) _ s ⟨rfl, rfl⟩
      (B32.unlessFaulted_push_frame _ idx s.b32)
  · rintro rfl
    cases h
    exact State.symBeat_b32_of (· = s.b32) _ s rfl rfl
  · rintro rfl
    cases h
    exact State.symBeat_unlessFaulted_of (fun b => b = { s.b32 with padSeen := b.padSeen }) _ s rfl rfl
  · rintro rfl
    cases h
    exact State.symBeat_unlessFaulted_of (fun b => b = { s.b32 with err := b.err }) _ s rfl rfl
  · rintro rfl
    cases h
    exact State.symBeat_b32_of (fun b => b = { s.b32 with phase := b.phase, err := b.err }) _ s rfl
      (by rw [B32.close_eq])

/-- A request hands nothing over, accepted or not (R121, R129). -/
theorem exec_truReq_host {s t : State} {digits : BitVec 4} {digest : Digest} (h : exec (.truReq digits digest) s = .next t) :
    t.host = s.host := by
  rcases s.tru.phase.accept_or_done with hp | hp
  · rw [exec_truReq_accept digits digest hp] at h; cases h; rfl
  · rw [exec_truReq_done digits digest hp] at h; cases h; rfl

/-- Settles O50: the unit's instructions change the TRU and the records taken alone. -/
theorem truncatorFrame : Obligations.TruncatorFrame := by
  intro i s t hi h
  have hrequest (digits : BitVec 4) (digest : Digest) (e : i = .truReq digits digest) : t.host = s.host :=
    exec_truReq_host (e ▸ h)
  obtain ⟨c, rs, rfl, -⟩ := exec_onTru hi h
  exact ⟨rfl, rfl, rfl, hrequest⟩

/-! # The whole-string contract

## Characters -/

/-- Folding twice folds once (R8). -/
theorem fold_fold (c : Byte) : fold (fold c) = fold c := by revert c; decide

/-- Folding makes no `=` (R8). -/
theorem fold_eq_padChar (c : Byte) : fold c = padChar ↔ c = padChar := by revert c; decide

/-- Only a lower-case letter is moved by folding, and then to an upper-case one (R8). -/
theorem fold_eq_or_letter (c : Byte) : fold c = c ∨ (0x41 ≤ fold c ∧ fold c ≤ 0x5A) := by revert c; decide

/-- A `WS_SET` without letters holds a code exactly if it holds the folded code (R90, log entry 21). -/
theorem fold_mem_iff {ws : List Byte} (hws : letterFree ws = true) (c : Byte) : fold c ∈ ws ↔ c ∈ ws := by
  have noLetter (d : Byte) (hd : d ∈ ws) : ¬ (0x41 ≤ fold d ∧ fold d ≤ 0x5A) := by
    simpa [imp_iff_not_or] using List.all_eq_true.mp hws d hd
  constructor <;> intro h
  · rw [← (fold_eq_or_letter c).resolve_right (by simpa only [fold_fold] using noLetter _ h)]
    exact h
  · rw [(fold_eq_or_letter c).resolve_right (noLetter c h)]
    exact h

/-- The class of a code does not depend on its case (R63, R64). -/
theorem lut_fold {ws : List Byte} (hws : letterFree ws = true) (c : Byte) : lut ws (fold c) = lut ws c := by
  simp only [lut, fold_mem_iff hws, fold_eq_padChar, fold_fold]

/-- The index of a code does not depend on its case (R64). -/
theorem alphaIdx_fold {ws : List Byte} (hws : letterFree ws = true) (c : Byte) :
    alphaIdx ws (fold c) = alphaIdx ws c := by
  rw [alphaIdx, alphaIdx, lut_fold hws]

/-- A letter is of the alphabet in either case (R64). -/
theorem isAlpha_fold {ws : List Byte} (hws : letterFree ws = true) (c : Byte) : isAlpha ws (fold c) = isAlpha ws c := by
  rw [isAlpha, isAlpha, alphaIdx_fold hws]

/-- The alphabet characters are those of a class `alpha` (R64). -/
theorem isAlpha_iff (ws : List Byte) (c : Byte) : isAlpha ws c = true ↔ ∃ idx, lut ws c = .alpha idx := by
  simp only [isAlpha, Option.isSome_iff_exists, alphaIdx_eq_some]

/-- Only alphabet characters have an index (R90). -/
theorem alphaIdx_eq_none (ws : List Byte) (c : Byte) : alphaIdx ws c = none ↔ isAlpha ws c = false := by
  simp [isAlpha]

/-- Whitespace and `=` have no index (R65, R66, R90). -/
theorem alphaIdx_of_ws_or_pad {ws : List Byte} {c : Byte} (hc : lut ws c = .ws ∨ lut ws c = .pad) :
    alphaIdx ws c = none := by
  rw [alphaIdx]
  rcases hc with e | e <;> rw [e]

/-! ## Normalised strings -/

/-- The folded string without its whitespace: stage 1 of `decode` before the padding is stripped (R90). -/
def visible (ws str : List Byte) : List Byte := (str.map fold).filter (· ∉ ws)

theorem normalizeString_eq (ws str : List Byte) : normalizeString ws str = stripPadding (visible ws str) := rfl

/-- Whitespace at the end is dropped (R90). -/
theorem visible_concat_ws {ws : List Byte} (hws : letterFree ws = true) (str : List Byte) {c : Byte} (hc : c ∈ ws) :
    visible ws (str ++ [c]) = visible ws str := by
  simp [visible, (fold_mem_iff hws c).mpr hc]

/-- Any other character at the end stays, folded (R90). -/
theorem visible_concat {ws : List Byte} (hws : letterFree ws = true) (str : List Byte) {c : Byte} (hc : c ∉ ws) :
    visible ws (str ++ [c]) = visible ws str ++ [fold c] := by
  simp [visible, mt (fold_mem_iff hws c).mp hc]

/-- Whitespace has no index, and folding keeps the others' (R90). -/
theorem filterMap_visible {ws : List Byte} (hws : letterFree ws = true) (str : List Byte) :
    (visible ws str).filterMap (alphaIdx ws) = str.filterMap (alphaIdx ws) := by
  induction str using List.reverseRecOn with
  | nil => rfl
  | append_singleton str c ih =>
    by_cases hc : c ∈ ws
    · have hnone := alphaIdx_of_ws_or_pad (.inl ((lut_eq_ws ws c).mpr hc))
      rw [visible_concat_ws hws str hc, ih]
      simp [hnone]
    · rw [visible_concat hws str hc, List.filterMap_append, List.filterMap_append, ih]
      simp [List.filterMap_cons, alphaIdx_fold hws]

/-- A whitespace or `=` at the end of a string is dropped (R90, R101 (b), (c)). -/
theorem normalizeString_concat_dropped {ws : List Byte} (hws : letterFree ws = true) (str : List Byte) {c : Byte}
    (hc : lut ws c = .ws ∨ lut ws c = .pad) : normalizeString ws (str ++ [c]) = normalizeString ws str := by
  rw [normalizeString_eq, normalizeString_eq]
  rcases hc with hc | hc
  · rw [visible_concat_ws hws str ((lut_eq_ws ws c).mp hc)]
  · obtain ⟨hmem, hpad⟩ := (lut_eq_pad ws c).mp hc
    rw [visible_concat hws str hmem, stripPadding, List.rdropWhile_concat_pos _ _ _ (by simp [(fold_eq_padChar c).mpr hpad])]
    rfl

/-- Any other character at the end of a string stays, and all before it (R90). -/
theorem normalizeString_concat_kept {ws : List Byte} (hws : letterFree ws = true) (str : List Byte) {c : Byte}
    (hmem : lut ws c ≠ .ws) (hpad : lut ws c ≠ .pad) : normalizeString ws (str ++ [c]) = visible ws str ++ [fold c] := by
  have hmem' : c ∉ ws := mt (lut_eq_ws ws c).mpr hmem
  have hpad' : fold c ≠ padChar := fun e => hpad ((lut_eq_pad ws c).mpr ⟨hmem', (fold_eq_padChar c).mp e⟩)
  rw [normalizeString_eq, visible_concat hws str hmem', stripPadding, List.rdropWhile_concat_neg _ _ _ (by simpa using hpad')]

/-! ## The strings `decode` finds no fault in -/

/-- No invalid character, and no alphabet character behind a `=`: the string has no fault but that it may be empty (R78, R90). -/
def Regular (ws str : List Byte) : Prop :=
  (∀ c ∈ str, lut ws c ≠ .invalid) ∧ str.Pairwise fun c d => lut ws c = .pad → isAlpha ws d = false

theorem regular_nil (ws : List Byte) : Regular ws [] := ⟨nofun, .nil⟩

/-- One more character. -/
theorem regular_concat (ws str : List Byte) (c : Byte) :
    Regular ws (str ++ [c]) ↔
      Regular ws str ∧ lut ws c ≠ .invalid ∧ (isAlpha ws c = true → ∀ d ∈ str, lut ws d ≠ .pad) := by
  simp only [Regular, List.forall_mem_append, List.forall_mem_singleton, List.pairwise_append, List.pairwise_singleton,
    true_and]
  constructor
  · rintro ⟨⟨hvalid, hc⟩, hlast, hpad⟩
    exact ⟨⟨hvalid, hlast⟩, hc, fun halpha d hd e => by simp [hpad d hd e] at halpha⟩
  · rintro ⟨⟨hvalid, hlast⟩, hc, hpad⟩
    refine ⟨⟨hvalid, hc⟩, hlast, fun d hd e => ?_⟩
    cases halpha : isAlpha ws c with
    | true => exact absurd e (hpad halpha d hd)
    | false => rfl

/-- A string without `=` is regular exactly if no character is invalid. -/
theorem regular_without_pad (ws str : List Byte) :
    (Regular ws str ∧ ∀ c ∈ str, lut ws c ≠ .pad) ↔ ∀ c ∈ str, lut ws c ≠ .invalid ∧ lut ws c ≠ .pad := by
  constructor
  · rintro ⟨⟨hvalid, -⟩, hpad⟩ c hc
    exact ⟨hvalid c hc, hpad c hc⟩
  · intro h
    refine ⟨⟨fun c hc => (h c hc).1, ?_⟩, fun c hc => (h c hc).2⟩
    exact List.pairwise_of_forall_mem_list fun c hc d _ e => absurd e (h c hc).2

/-- Without its whitespace a string is all of the alphabet exactly if it is regular and holds no `=`. -/
theorem all_visible_iff {ws : List Byte} (hws : letterFree ws = true) (str : List Byte) :
    (∀ c ∈ visible ws str, isAlpha ws c = true) ↔ Regular ws str ∧ ∀ c ∈ str, lut ws c ≠ .pad := by
  rw [regular_without_pad]
  simp only [visible, List.mem_filter, List.mem_map, and_imp, forall_exists_index, forall_apply_eq_imp_iff₂,
    decide_eq_true_eq, fold_mem_iff hws, isAlpha_fold hws]
  refine forall₂_congr fun c _ => ?_
  rw [← lut_eq_ws, isAlpha_iff]
  cases lut ws c <;> simp

/-- After stage 1 of `decode` every character is of the alphabet exactly if the string is regular (R90). -/
theorem all_normalizeString_iff {ws : List Byte} (hws : letterFree ws = true) (str : List Byte) :
    (∀ c ∈ normalizeString ws str, isAlpha ws c = true) ↔ Regular ws str := by
  induction str using List.reverseRecOn with
  | nil => exact ⟨fun _ => regular_nil ws, fun _ => nofun⟩
  | append_singleton str c ih =>
    rw [regular_concat]
    by_cases hdrop : lut ws c = .ws ∨ lut ws c = .pad
    · have hno := (alphaIdx_eq_none ws c).mp (alphaIdx_of_ws_or_pad hdrop)
      rw [normalizeString_concat_dropped hws str hdrop, ih]
      rcases hdrop with e | e <;> simp [hno, e]
    · obtain ⟨hws', hpad'⟩ := not_or.mp hdrop
      rw [normalizeString_concat_kept hws str hws' hpad', List.forall_mem_append, all_visible_iff hws,
        List.forall_mem_singleton, isAlpha_fold hws]
      cases hc : lut ws c with
      | ws => exact absurd hc hws'
      | pad => exact absurd hc hpad'
      | invalid | alpha _ => simp [isAlpha, alphaIdx, hc]

/-- Stage 1 of `decode` keeps the indices (R90). -/
theorem filterMap_normalizeString {ws : List Byte} (hws : letterFree ws = true) (str : List Byte) :
    (normalizeString ws str).filterMap (alphaIdx ws) = str.filterMap (alphaIdx ws) := by
  induction str using List.reverseRecOn with
  | nil => rfl
  | append_singleton str c ih =>
    by_cases hdrop : lut ws c = .ws ∨ lut ws c = .pad
    · have hnone := alphaIdx_of_ws_or_pad hdrop
      rw [normalizeString_concat_dropped hws str hdrop, ih]
      simp [hnone]
    · obtain ⟨hws', hpad'⟩ := not_or.mp hdrop
      rw [normalizeString_concat_kept hws str hws' hpad', ← visible_concat hws str (mt (lut_eq_ws ws c).mpr hws'),
        filterMap_visible hws]

/-! ## The result of `decode` -/

/-- `decode` of a regular string with an alphabet character is the bytes of its indices (R90). -/
theorem decodeString_of_regular {ws str : List Byte} (hws : letterFree ws = true) (hregular : Regular ws str)
    (hne : str.filterMap (alphaIdx ws) ≠ []) :
    decodeString ws str = .ok (sliceBytes (str.filterMap (alphaIdx ws))) := by
  have hix := filterMap_normalizeString hws str
  have hsome : normalizeString ws str ≠ [] := fun e => hne (by rw [← hix, e]; rfl)
  have hall := (all_normalizeString_iff hws str).mpr hregular
  rw [decodeString, if_neg (by simpa using hsome), if_neg (by simpa using hall), hix]

/-- `decode` of any other string is `InvalidSecretFormat` (R90). -/
theorem decodeString_of_fault {ws str : List Byte} (hws : letterFree ws = true)
    (hfault : Regular ws str → str.filterMap (alphaIdx ws) = []) :
    decodeString ws str = .error .invalidSecretFormat := by
  rw [decodeString]
  split
  · rfl
  · next hsome =>
    rw [if_pos]
    by_contra hany
    have hall : ∀ c ∈ normalizeString ws str, isAlpha ws c = true := by simpa using hany
    have hnone := hfault ((all_normalizeString_iff hws str).mp hall)
    rw [← filterMap_normalizeString hws str, List.filterMap_eq_nil_iff] at hnone
    obtain ⟨c, hc⟩ := List.exists_mem_of_ne_nil (normalizeString ws str) (by simpa using hsome)
    exact Bool.false_ne_true (((alphaIdx_eq_none ws c).mp (hnone c hc)).symm.trans (hall c hc))

/-- The strings `decode` accepts, and their bytes (R90). -/
theorem decodeString_eq_ok {ws str bytes : List Byte} (hws : letterFree ws = true) :
    decodeString ws str = .ok bytes ↔
      Regular ws str ∧ str.filterMap (alphaIdx ws) ≠ [] ∧ sliceBytes (str.filterMap (alphaIdx ws)) = bytes := by
  by_cases h : Regular ws str ∧ str.filterMap (alphaIdx ws) ≠ []
  · rw [decodeString_of_regular hws h.1 h.2, Except.ok.injEq, ← and_assoc, and_iff_right h]
  · rw [decodeString_of_fault hws fun hregular => by_contra fun hne => h ⟨hregular, hne⟩]
    exact ⟨nofun, fun ⟨hregular, hne, _⟩ => absurd ⟨hregular, hne⟩ h⟩

/-! ## Bytes and numbers -/

@[simp] theorem sliceBytes_length (ix : List (BitVec 5)) : (sliceBytes ix).length = 5 * ix.length / 8 := by
  simp [sliceBytes]

/-- A byte sequence is cut out of the number it is read as (R42). -/
theorem bytes_of_bigEndian (l : List Byte) :
    ((List.range l.length).map fun m => BitVec.ofNat 8 (bigEndian l >>> (8 * (l.length - 1 - m)))) = l := by
  induction l using List.reverseRecOn with
  | nil => rfl
  | append_singleton l b ih =>
    have hlow := b.isLt
    have hlast : BitVec.ofNat 8 (256 * bigEndian l + b.toNat) = b :=
      BitVec.eq_of_toNat_eq (by rw [BitVec.toNat_ofNat]; omega)
    have hinit (m : Nat) (hm : m ∈ List.range l.length) :
        (256 * bigEndian l + b.toNat) >>> (8 * (l.length - m)) = bigEndian l >>> (8 * (l.length - 1 - m)) := by
      have hm' := List.mem_range.mp hm
      rw [show 8 * (l.length - m) = 8 + 8 * (l.length - 1 - m) by omega, Nat.shiftRight_add]
      congr 1
      rw [Nat.shiftRight_eq_div_pow]
      omega
    rw [bigEndian_append, List.length_append, List.length_singleton, List.range_succ, List.map_append, List.map_singleton,
      Nat.add_sub_cancel, Nat.sub_self, Nat.mul_zero, Nat.shiftRight_zero, hlast]
    congr 1
    refine (List.map_congr_left fun m hm => ?_).trans ih
    rw [hinit m hm]

/-- R18 (c): the buffer of a string accepted without a fault holds the bytes of its indices. -/
theorem B32.Reads.buf_eq {ws str : List Byte} {b : B32} (h : b.Reads ws str) (hacc : b.acc.toNat < 2 ^ b.nbits.toNat) :
    b.buf = sliceBytes (str.filterMap (alphaIdx ws)) := by
  obtain ⟨hlength, hrest⟩ := h.length_and_rest
  have hvalue : bitString (str.filterMap (alphaIdx ws)) >>> b.nbits.toNat = bigEndian b.buf := by
    rw [← h.value_eq, B32.value, Nat.shiftRight_eq_div_pow, Nat.add_comm, Nat.add_mul_div_right _ _ (Nat.two_pow_pos _),
      Nat.div_eq_of_lt hacc, Nat.zero_add]
  rw [sliceBytes, ← hlength, ← hrest]
  simp only [Nat.shiftRight_add, hvalue]
  exact (bytes_of_bigEndian b.buf).symm

/-! ## A character in phase ACCEPT -/

/-- The body of a character's instruction, by its class (R92 to R95). -/
def B32.read (secretMax : Option Nat) : CharClass → B32 → B32
  | .alpha idx => B32.push secretMax idx
  | .ws => id
  | .pad => B32.markPad
  | .invalid => B32.raise .invalidSecretFormat

/-- A character in phase ACCEPT runs the body of its class, if no fault is recorded (R91 to R95). -/
theorem exec_instrOfClass_accept {s : State} (k : CharClass) (haccept : s.b32.phase = .accept) :
    exec (instrOfClass k) s = .next (s.setB32 (s.b32.unlessFaulted (B32.read s.cfg.secretMax k))) := by
  cases k with
  | alpha idx => exact exec_symAlpha_accept idx haccept
  | ws =>
    have hid : s.b32.unlessFaulted id = s.b32 := B32.unlessFaulted_of (· = s.b32) id s.b32 rfl rfl
    rw [B32.read, hid]
    exact congrArg _ (State.symBeat_accept id s haccept)
  | pad | invalid => exact congrArg _ (State.symBeat_accept _ s haccept)

/-! ## A string under a finite capacity -/

/-- Some initial part of the string decodes to more bytes than fit (R57). -/
def Overflows (secretMax : Option Nat) (ws str : List Byte) : Prop :=
  ∃ p, p <+: str ∧ Regular ws p ∧ ¬ fits secretMax (sliceBytes (p.filterMap (alphaIdx ws))).length

/-- The capacity is overrun within the string, or by its last character. -/
theorem overflows_concat (secretMax : Option Nat) (ws str : List Byte) (c : Byte) :
    Overflows secretMax ws (str ++ [c]) ↔ Overflows secretMax ws str ∨
      (Regular ws (str ++ [c]) ∧ ¬ fits secretMax (sliceBytes ((str ++ [c]).filterMap (alphaIdx ws))).length) := by
  simp only [Overflows, List.prefix_concat_iff, or_and_right, exists_or, exists_eq_left, or_comm]

/-- Fewer bytes fit where more do. -/
theorem fits_of_le {secretMax : Option Nat} {n m : Nat} (h : fits secretMax n) (hle : m ≤ n) : fits secretMax m := by
  cases secretMax with
  | none => trivial
  | some _ => exact hle.trans h

/-- Where the bytes of the whole string fit, those of every initial part do. -/
theorem not_overflows_of_fits {secretMax : Option Nat} {ws str : List Byte}
    (h : fits secretMax (sliceBytes (str.filterMap (alphaIdx ws))).length) : ¬ Overflows secretMax ws str := by
  rintro ⟨p, hp, -, hover⟩
  refine hover (fits_of_le h ?_)
  have hcount : (p.filterMap (alphaIdx ws)).length ≤ (str.filterMap (alphaIdx ws)).length :=
    (hp.sublist.filterMap _).length_le
  rw [sliceBytes_length, sliceBytes_length]
  omega

/-- What holds of B32D and the string it has read while no fault is recorded, beside `B32.Reads`. -/
structure B32.Faultless (secretMax : Option Nat) (ws str : List Byte) (b : B32) : Prop where
  err_zero : b.err = 0
  regular : Regular ws str
  pad_read : b.padSeen = true → ∃ c ∈ str, lut ws c = .pad
  fits : fits secretMax b.buf.length

/-- What B32D has recorded after the symbols of a string: no fault, or the first one (R92, R95, R174). -/
inductive B32.Verdict (secretMax : Option Nat) (ws str : List Byte) (b : B32) : Prop
  | clean (h : B32.Faultless secretMax ws str b)
  | malformed (herr : b.err = 1) (hregular : ¬ Regular ws str) (hfits : ¬ Overflows secretMax ws str)
  | tooLong (herr : b.err = 6) (hover : Overflows secretMax ws str)

/-- An alphabet character keeps a string regular exactly if no `=` was read before it. -/
theorem regular_concat_alpha {ws : List Byte} (str : List Byte) {c : Byte} {idx : BitVec 5} (hc : lut ws c = .alpha idx) :
    Regular ws (str ++ [c]) ↔ Regular ws str ∧ ∀ d ∈ str, lut ws d ≠ .pad := by
  have halpha : isAlpha ws c = true := (isAlpha_iff ws c).mpr ⟨idx, hc⟩
  simp [regular_concat, halpha, hc]

/-- A whitespace or `=` keeps a string regular. -/
theorem regular_concat_ws_or_pad {ws : List Byte} (str : List Byte) {c : Byte} (hc : lut ws c = .ws ∨ lut ws c = .pad) :
    Regular ws (str ++ [c]) ↔ Regular ws str := by
  have hno := (alphaIdx_eq_none ws c).mp (alphaIdx_of_ws_or_pad hc)
  rcases hc with e | e <;> simp [regular_concat, hno, e]

/-- The bytes of a string accepted without a fault are as many as the buffer holds (R18 (b)). -/
theorem B32.Reads.bytes_length {ws str : List Byte} {b : B32} (h : b.Reads ws str) :
    (sliceBytes (str.filterMap (alphaIdx ws))).length = b.buf.length := by
  rw [sliceBytes_length, h.length_and_rest.1]

/-- A malformed string's fault is the first one, unless the capacity was overrun before it. -/
theorem B32.Verdict.of_malformed {secretMax : Option Nat} {ws str : List Byte} {b : B32} {c : Byte} (herr : b.err = 1)
    (hregular : ¬ Regular ws (str ++ [c])) (hfits : ¬ Overflows secretMax ws str) :
    B32.Verdict secretMax ws (str ++ [c]) b :=
  .malformed herr hregular fun hover =>
    ((overflows_concat _ _ _ _).mp hover).elim hfits fun hlast => hregular hlast.1

/-- An alphabet character read where no fault is recorded (R92). -/
theorem B32.verdict_push {secretMax : Option Nat} {ws str : List Byte} {b : B32} {c : Byte} {idx : BitVec 5}
    (hc : lut ws c = .alpha idx) (hreads : b.Reads ws str) (h : b.Faultless secretMax ws str) :
    B32.Verdict secretMax ws (str ++ [c]) (b.push secretMax idx) := by
  obtain ⟨herr, hregular, hpad, hfits⟩ := h
  have hconcat := regular_concat_alpha str hc
  have hkept (hseen : b.padSeen = false) : Regular ws (str ++ [c]) :=
    hconcat.mpr ⟨hregular, hreads.padUnseen hseen⟩
  have hix : (str ++ [c]).filterMap (alphaIdx ws) = str.filterMap (alphaIdx ws) ++ [idx] := by
    simp [(alphaIdx_eq_some ws c idx).mpr hc]
  have hlength := hreads.length_and_rest
  rcases B32.push_cases secretMax idx b with
    ⟨hseen, e⟩ | ⟨hseen, hn, e⟩ | ⟨hseen, hn, hfull, e⟩ | ⟨hseen, hn, hroom, e⟩ <;> rw [e]
  · obtain ⟨d, hd, hdpad⟩ := hpad hseen
    exact .of_malformed rfl (fun hr => (hconcat.mp hr).2 d hd hdpad)
      (not_overflows_of_fits (hreads.bytes_length ▸ hfits))
  · exact .clean ⟨herr, hkept hseen, fun h => by simp [B32.load, hseen] at h, hfits⟩
  · refine .tooLong rfl ((overflows_concat _ _ _ _).mpr (.inr ⟨hkept hseen, ?_⟩))
    rw [hfull, fits, hix, sliceBytes_length, List.length_append, List.length_singleton]
    omega
  · obtain ⟨-, -, x, -, hbuf⟩ := B32.emit_toNat idx b hn
    refine .clean ⟨herr, hkept hseen, fun h => by simp [B32.emit, hseen] at h, ?_⟩
    rw [hbuf, List.length_append, List.length_singleton]
    exact fits_succ hfits hroom

/-- Any character read where no fault is recorded (R92 to R95). -/
theorem B32.verdict_read {secretMax : Option Nat} {ws str : List Byte} {b : B32} (c : Byte) (hreads : b.Reads ws str)
    (h : b.Faultless secretMax ws str) : B32.Verdict secretMax ws (str ++ [c]) (b.read secretMax (lut ws c)) := by
  cases hc : lut ws c with
  | alpha idx => exact B32.verdict_push hc hreads h
  | ws =>
    refine .clean ⟨h.err_zero, (regular_concat_ws_or_pad str (.inl hc)).mpr h.regular, fun hseen => ?_, h.fits⟩
    obtain ⟨d, hd, hdpad⟩ := h.pad_read hseen
    exact ⟨d, List.mem_append_left _ hd, hdpad⟩
  | pad =>
    exact .clean ⟨h.err_zero, (regular_concat_ws_or_pad str (.inr hc)).mpr h.regular, fun _ => ⟨c, by simp, hc⟩, h.fits⟩
  | invalid =>
    exact .of_malformed rfl (fun hr => ((regular_concat ws str c).mp hr).2.1 hc)
      (not_overflows_of_fits (hreads.bytes_length ▸ h.fits))

/-- One more character: the first fault stays, or this character decides (R91). -/
theorem B32.Verdict.concat {secretMax : Option Nat} {ws str : List Byte} {b : B32} (c : Byte)
    (h : B32.Verdict secretMax ws str b) (hreads : b.err = 0 → b.Reads ws str) :
    B32.Verdict secretMax ws (str ++ [c]) (b.unlessFaulted (B32.read secretMax (lut ws c))) := by
  rcases B32.unlessFaulted_cases (B32.read secretMax (lut ws c)) b with ⟨herr, e⟩ | ⟨herr, e⟩ <;> rw [e]
  · cases h with
    | clean hclean => exact absurd hclean.err_zero herr
    | malformed herr hregular hfits =>
      exact .of_malformed herr (fun hr => hregular ((regular_concat ws str c).mp hr).1) hfits
    | tooLong herr hover => exact .tooLong herr ((overflows_concat _ _ _ _).mpr (.inl hover))
  · cases h with
    | clean hclean => exact B32.verdict_read c (hreads herr) hclean
    | malformed herr' | tooLong herr' => rw [herr'] at herr; cases herr

/-- What B32D has recorded after the symbols of any string from the idle state, under any capacity. -/
theorem verdict_of_execAll_symbolsOf {s : State} (hidle : s.b32 = B32.idle) (str : List Byte) (b : B32)
    (hexec : execAll (symbolsOf s.cfg.wsSet str) s = .next (s.setB32 b)) :
    B32.Verdict s.cfg.secretMax s.cfg.wsSet str b := by
  induction str using List.reverseRecOn generalizing b with
  | nil =>
    obtain rfl : B32.idle = b := hidle ▸ congrArg State.b32 (Host.Outcome.next.inj hexec)
    exact .clean ⟨rfl, regular_nil _, nofun, (B32.idle_inv _).bufFits⟩
  | append_singleton str c ih =>
    obtain ⟨b₀, hexec₀, haccept, -, hreads⟩ := execAll_symbolsOf s str hidle
    rw [symbolsOf_concat, execAll_append _ _ _ _ hexec₀, execAll,
      exec_instrOfClass_accept (s := s.setB32 b₀) _ haccept] at hexec
    obtain rfl : b₀.unlessFaulted (B32.read s.cfg.secretMax (lut s.cfg.wsSet c)) = b :=
      congrArg State.b32 (Host.Outcome.next.inj hexec)
    exact (ih b₀ hexec₀).concat c hreads

/-! ## The record of a string -/

/-- END publishes a recorded fault (R20, R96). -/
theorem B32.record_close_of_fault (b : B32) (herr : b.err ≠ 0) : b.close.record = ⟨b.err, 0, [], false⟩ := by
  have hclose : b.close.err = b.err := by rw [B32.close_eq]; exact if_neg fun e => herr e.1
  rw [B32.record_of_fault _ (hclose ▸ herr), hclose]

/-- END publishes `InvalidSecretFormat` for a string without an alphabet character (R96). -/
theorem B32.record_close_of_empty (b : B32) (herr : b.err = 0) (hempty : b.nonempty = false) :
    b.close.record = ⟨1, 0, [], false⟩ := by
  have hclose : b.close.err = 1 := by rw [B32.close_eq]; exact if_pos ⟨herr, hempty⟩
  rw [B32.record_of_fault _ (by rw [hclose]; decide), hclose]

/-- END publishes the buffer of any other string accepted without a fault (R20, R96). -/
theorem B32.record_close_of_success (b : B32) (herr : b.err = 0) (hne : b.nonempty = true) :
    b.close.record = ⟨0, b.buf.length, b.buf, b.buf.isEmpty⟩ := by
  rw [B32.record_of_success _ ((b.close_err_zero).mpr ⟨herr, hne⟩), B32.close_eq]

/-- The record promised for a string `decode` rejects (R98). -/
theorem promisedRecord_of_fault {ws str : List Byte} (hws : letterFree ws = true)
    (hfault : Regular ws str → str.filterMap (alphaIdx ws) = []) : promisedRecord ws str = ⟨1, 0, [], false⟩ := by
  rw [promisedRecord, decodeString_of_fault hws hfault]
  rfl

/-- The record END publishes, by what the symbols recorded (R20, R96, R98). -/
theorem B32.Verdict.record_close {secretMax : Option Nat} {ws str : List Byte} {b : B32} (hws : letterFree ws = true)
    (h : B32.Verdict secretMax ws str b) (hacc : b.acc.toNat < 2 ^ b.nbits.toNat) (hreads : b.err = 0 → b.Reads ws str) :
    (Overflows secretMax ws str → b.close.record = ⟨6, 0, [], false⟩) ∧
    (¬ Overflows secretMax ws str → b.close.record = promisedRecord ws str) := by
  cases h with
  | tooLong herr hover =>
    exact ⟨fun _ => by rw [b.record_close_of_fault (by rw [herr]; decide), herr], fun hfits => absurd hover hfits⟩
  | malformed herr hregular hfits =>
    refine ⟨fun hover => absurd hover hfits, fun _ => ?_⟩
    rw [b.record_close_of_fault (by rw [herr]; decide), herr, promisedRecord_of_fault hws fun h => absurd h hregular]
  | clean hclean =>
    obtain ⟨herr, hregular, -, hfits⟩ := hclean
    have hreads := hreads herr
    refine ⟨fun hover => absurd hover (not_overflows_of_fits (hreads.bytes_length ▸ hfits)), fun _ => ?_⟩
    cases hne : b.nonempty with
    | false =>
      have hnone : str.filterMap (alphaIdx ws) = [] :=
        List.length_eq_zero_iff.mp (Nat.eq_zero_of_not_pos (hreads.nonempty_iff.not.mp (by simp [hne])))
      rw [b.record_close_of_empty herr hne, promisedRecord_of_fault hws fun _ => hnone]
    | true =>
      have hsome : str.filterMap (alphaIdx ws) ≠ [] := List.ne_nil_of_length_pos (hreads.nonempty_iff.mp hne)
      rw [b.record_close_of_success herr hne, promisedRecord, decodeString_of_regular hws hregular hsome,
        hreads.buf_eq hacc]

/-- Every string is accepted from the idle state and published with END: with `SecretTooLong` if it overruns the capacity, else as
`decode` has it (R57, R92, R98). -/
theorem execAll_string {s : State} (str : List Byte) (hidle : s.b32 = B32.idle) (hws : letterFree s.cfg.wsSet = true) :
    ∃ t, execAll (symbolsOf s.cfg.wsSet str ++ [.endOfString]) s = .next t ∧
      (Overflows s.cfg.secretMax s.cfg.wsSet str → t.b32Res = some ⟨6, 0, [], false⟩) ∧
      (¬ Overflows s.cfg.secretMax s.cfg.wsSet str → t.b32Res = some (promisedRecord s.cfg.wsSet str)) := by
  obtain ⟨b, hexec, haccept, hacc, hreads⟩ := execAll_symbolsOf s str hidle
  obtain ⟨hover, hfits⟩ := (verdict_of_execAll_symbolsOf hidle str b hexec).record_close hws hacc hreads
  have hres : (s.setB32 b.close).b32Res = some b.close.record := by
    simp [State.b32Res, B32.close_eq]
  refine ⟨s.setB32 b.close, ?_, fun h => hres.trans (congrArg some (hover h)),
    fun h => hres.trans (congrArg some (hfits h))⟩
  rw [execAll_append _ _ _ _ hexec, execAll, exec_endOfString_accept (s := s.setB32 b) haccept]
  rfl

/-- A finite capacity is overrun exactly if `decode` of some initial part has more bytes (R57, R90). -/
theorem overflows_some_iff {ws : List Byte} (hws : letterFree ws = true) (m : Nat) (str : List Byte) :
    Overflows (some m) ws str ↔ ∃ p bytes, p <+: str ∧ decodeString ws p = .ok bytes ∧ m < bytes.length := by
  constructor
  · rintro ⟨p, hp, hregular, hover⟩
    have hlong : m < (sliceBytes (p.filterMap (alphaIdx ws))).length := Nat.not_le.mp hover
    refine ⟨p, _, hp, decodeString_of_regular hws hregular fun e => ?_, hlong⟩
    simp [e] at hlong
  · rintro ⟨p, bytes, hp, hdecode, hlong⟩
    obtain ⟨hregular, -, rfl⟩ := (decodeString_eq_ok hws).mp hdecode
    exact ⟨p, hp, hregular, Nat.not_le.mpr hlong⟩

/-- Settles O36: the symbols of a string record `SecretTooLong` exactly if an initial part overruns the capacity, by induction on
the string, one character added at its end. -/
theorem finiteCapacityFaults : Obligations.FiniteCapacityFaults := by
  intro s str m hidle hmax hws overflows
  obtain ⟨t, hexec, hover, hfits⟩ := execAll_string str hidle hws
  rw [hmax, overflows_some_iff hws] at hover hfits
  exact ⟨t, hexec, hover, hfits⟩

end Sys2Proof.Machine

namespace Sys2Proof

/-! # The encoding

## The codes of a class -/

/-- Folding, as numbers (R8). -/
theorem fold_toNat (c : Byte) :
    (fold c).toNat = if 0x61 ≤ c.toNat ∧ c.toNat ≤ 0x7A then c.toNat - 0x20 else c.toNat := by
  revert c; decide

/-- The index of an upper-case letter is its distance from `A`, that of a digit its distance from `2` behind the letters (R63). -/
theorem alphaClass_eq_alpha (u : Byte) (idx : BitVec 5) :
    alphaClass u = .alpha idx ↔
      (idx.toNat < 26 ∧ u.toNat = 0x41 + idx.toNat) ∨ (26 ≤ idx.toNat ∧ u.toNat = 0x32 + (idx.toNat - 26)) := by
  have hidx := idx.isLt
  unfold alphaClass
  split
  · rw [CharClass.alpha.injEq, ← BitVec.toNat_inj]
    bv_omega
  · split
    · rw [CharClass.alpha.injEq, ← BitVec.toNat_inj]
      bv_omega
    · simp only [reduceCtorEq, false_iff]
      bv_omega

/-- Outside `WS_SET` a code is of class alpha as its folded code says: `=` is no letter and no digit (R63). -/
theorem lut_eq_alpha_iff_alphaClass (ws : List Byte) (c : Byte) (idx : BitVec 5) :
    lut ws c = .alpha idx ↔ c ∉ ws ∧ alphaClass (fold c) = .alpha idx := by
  have hpad : alphaClass (fold padChar) = .invalid := rfl
  unfold lut
  split
  · simp [*]
  · split <;> simp [*]

/-- Settles O5: folding maps both codes of a letter to the upper-case one, and no other code to it. -/
theorem lutIndexIsAlphabetPosition : Obligations.LutIndexIsAlphabetPosition := by
  intro ws c idx
  rw [lut_eq_alpha_iff_alphaClass, alphaClass_eq_alpha, fold_toNat]
  refine and_congr_right fun _ => ?_
  have hidx := idx.isLt
  split <;> omega

theorem alphaCode_toNat (idx : BitVec 5) :
    (alphaCode idx).toNat = if idx.toNat < 26 then 0x41 + idx.toNat else 0x32 + (idx.toNat - 26) := by
  revert idx; decide

theorem aliasCode_toNat (idx : BitVec 5) :
    (aliasCode idx).toNat = if idx.toNat < 26 then 0x61 + idx.toNat else 0x32 + (idx.toNat - 26) := by
  revert idx; decide

/-- The codes of an index are its own and that of the lower-case letter, unless `WS_SET` holds them (R64). -/
theorem lut_eq_alpha (ws : List Byte) (c : Byte) (idx : BitVec 5) :
    lut ws c = .alpha idx ↔ c ∉ ws ∧ (c = alphaCode idx ∨ c = aliasCode idx) := by
  rw [lutIndexIsAlphabetPosition, ← BitVec.toNat_inj, ← BitVec.toNat_inj, alphaCode_toNat, aliasCode_toNat]
  refine and_congr_right fun _ => ?_
  split <;> omega

/-- `someCode` searches all codes for one of the class. -/
theorem someCode_iff (ws : List Byte) (k : CharClass) : someCode ws k = true ↔ ∃ c, lut ws c = k := by
  simp [someCode, mem_allCodes]

/-- The code the encoder writes for a class is of that class, if any code is (R61 to R66). -/
theorem lut_classCode {ws : List Byte} {k : CharClass} (h : someCode ws k = true) : lut ws (classCode ws k) = k := by
  obtain ⟨c, hc⟩ := (someCode_iff ws k).mp h
  cases k with
  | alpha idx =>
    obtain ⟨hmem, hcode⟩ := (lut_eq_alpha ws c idx).mp hc
    rw [lut_eq_alpha, classCode]
    split
    · next hws =>
      have halias : c = aliasCode idx := hcode.resolve_left fun e => hmem (e ▸ hws)
      exact ⟨halias ▸ hmem, .inr rfl⟩
    · next hfree => exact ⟨hfree, .inl rfl⟩
  | ws =>
    rw [lut_eq_ws] at hc ⊢
    cases ws with
    | nil => cases hc
    | cons first rest => exact List.mem_cons_self
  | pad =>
    obtain ⟨hmem, rfl⟩ := (lut_eq_pad ws c).mp hc
    exact hc
  | invalid =>
    have hfound : (allCodes.find? fun c => lut ws c = .invalid).isSome = true :=
      List.find?_isSome.mpr ⟨c, mem_allCodes c, by simpa using hc⟩
    obtain ⟨d, hd⟩ := Option.isSome_iff_exists.mp hfound
    rw [classCode, hd]
    simpa using List.find?_some hd

/-- A class's instruction is well formed exactly if some code is of the class (R62). -/
theorem wf_instrOfClass (ws : List Byte) (k : CharClass) : (instrOfClass k).wf ws = someCode ws k := by
  cases k <;> rfl

/-! ## Decoding what was encoded, and encoding what was decoded -/

/-- The word the encoder writes for a class decodes to the instruction of the class (R61, R62). -/
theorem decode_symWord_classCode {ws : List Byte} {k : CharClass} (h : someCode ws k = true) :
    decode ws (.symIn (symWord (classCode ws k))) = .ok (instrOfClass k) := by
  rw [decode_symWord, lut_classCode h]

/-- Settles O2: a character's instruction comes back through the code of its class, a request through its two fields. -/
theorem decodeEncodeRoundTrip : Obligations.DecodeEncodeRoundTrip := by
  intro ws i hwf
  cases i with
  | symAlpha idx => exact decode_symWord_classCode (k := .alpha idx) hwf
  | symWs => exact decode_symWord_classCode (k := .ws) hwf
  | symPad => exact decode_symWord_classCode (k := .pad) hwf
  | symInvalid => exact decode_symWord_classCode (k := .invalid) hwf
  | truReq digits digest => exact decode_reqWord ws digits digest
  | endOfString | b32Take | truTake | reset => rfl

/-- Settles O3: a character's instruction is well formed by that very character. -/
theorem decodedIsWellFormed : Obligations.DecodedIsWellFormed := by
  intro ws w i h
  cases w with
  | symIn w =>
    cases h
    unfold decodeSym
    split
    · rfl
    · rw [wf_instrOfClass]
      exact (someCode_iff ws _).mpr ⟨symChar w, rfl⟩
  | truReq q => cases h; rfl
  | b32Ready v | truReady v | rst v => rw [Machine.decodeEvent_ok h]; rfl

/-! ## The fields of a word -/

/-- The `end` field is the top bit of the word (R61). -/
theorem symEnd_iff (w : Sym9) : symEnd w = true ↔ 256 ≤ w.toNat := by
  have htop : symEnd w = w.msb := by rw [symEnd, BitVec.msb_eq_getLsbD_last]
  rw [htop, BitVec.msb_eq_decide, decide_eq_true_iff]

/-- The `char` field is the low eight bits of the word (R61). -/
theorem symChar_eq (w : Sym9) : symChar w = BitVec.ofNat 8 w.toNat :=
  BitVec.eq_of_toNat_eq (by simp [symChar, BitVec.extractLsb'_toNat])

/-- Settles O4. -/
theorem symWordSelectsOneInstruction : Obligations.SymWordSelectsOneInstruction := by
  intro ws w
  rw [decode, decodeSym, symChar_eq]
  by_cases hend : 256 ≤ w.toNat
  · rw [if_pos ((symEnd_iff w).mpr hend), if_pos hend]
  · rw [if_neg (mt (symEnd_iff w).mp hend), if_neg hend]
    cases lut ws (BitVec.ofNat 8 w.toNat) <;> rfl

/-- Settles O7: each digest byte is cut out of the request word itself. -/
theorem requestWordFields : Obligations.RequestWordFields := by
  intro ws q
  refine ⟨q.extractLsb' 160 4, q.extractLsb' 0 160, rfl, ?_, fun i hi => ?_⟩
  · rw [BitVec.extractLsb'_toNat, Nat.shiftRight_eq_div_pow]
    have hq := q.isLt
    omega
  · have hbyte : Machine.digestByte (q.extractLsb' 0 160) i = q.extractLsb' (152 - 8 * i) 8 :=
      BitVec.extractLsb'_extractLsb'_of_le (by omega)
    rw [hbyte, BitVec.extractLsb'_toNat, Nat.shiftRight_eq_div_pow]

/-! ## The default parameters -/

/-- Settles O1, by running the decoder on each word. -/
theorem specWordsDecode : Obligations.SpecWordsDecode := by
  unfold Obligations.SpecWordsDecode
  decide

/-- Settles O6: whitespace and `=` by the rules of the LUT, the invalid codes and the counts by running it on the 256 codes. -/
theorem defaultClassesOfCodes : Obligations.DefaultClassesOfCodes := by
  refine ⟨fun c => ?_, fun c => ?_, by decide, by decide +kernel, by decide +kernel, by decide +kernel,
    by decide +kernel⟩
  · rw [lut_eq_ws]
    revert c; decide
  · rw [lut_eq_pad]
    revert c; decide

end Sys2Proof

namespace Sys2Proof.Machine

/-! # The strings of the grammar -/

/-- The whitespace and padding classes are the codes `=` and those of `WS_SET` (R65, R66). -/
theorem lut_eq_ws_or_pad (ws : List Byte) (c : Byte) : lut ws c = .ws ∨ lut ws c = .pad ↔ c = padChar ∨ c ∈ ws := by
  rw [lut_eq_ws, lut_eq_pad]
  by_cases hc : c ∈ ws <;> simp [hc]

/-- A code that is neither invalid nor `=` is of the alphabet or whitespace (R63). -/
theorem isAlpha_or_mem_ws_iff (ws : List Byte) (c : Byte) :
    isAlpha ws c = true ∨ c ∈ ws ↔ lut ws c ≠ .invalid ∧ lut ws c ≠ .pad := by
  rw [isAlpha_iff, ← lut_eq_ws]
  cases lut ws c <;> simp

/-- Whitespace and `=` at the end keep a string regular. -/
theorem regular_append_ws_or_pad {ws : List Byte} (str trail : List Byte)
    (htrail : ∀ c ∈ trail, lut ws c = .ws ∨ lut ws c = .pad) : Regular ws (str ++ trail) ↔ Regular ws str := by
  induction trail generalizing str with
  | nil => rw [List.append_nil]
  | cons c trail ih =>
    obtain ⟨hc, htrail⟩ := List.forall_mem_cons.mp htrail
    rw [List.append_cons, ih _ htrail, regular_concat_ws_or_pad str hc]

/-- The regular strings are those of the form `(L | W)* (= | W)*` (R78). -/
theorem regular_iff_split (ws str : List Byte) :
    Regular ws str ↔ ∃ front trail, str = front ++ trail ∧ (∀ c ∈ front, isAlpha ws c = true ∨ c ∈ ws) ∧
      (∀ c ∈ trail, c = padChar ∨ c ∈ ws) := by
  simp only [isAlpha_or_mem_ws_iff, ← lut_eq_ws_or_pad]
  constructor
  · intro hregular
    induction str using List.reverseRecOn with
    | nil => exact ⟨[], [], rfl, nofun, nofun⟩
    | append_singleton str c ih =>
      obtain ⟨hstr, hvalid, hpad⟩ := (regular_concat ws str c).mp hregular
      by_cases hc : lut ws c = .ws ∨ lut ws c = .pad
      · obtain ⟨front, trail, rfl, hfront, htrail⟩ := ih hstr
        exact ⟨front, trail ++ [c], List.append_assoc .., hfront,
          List.forall_mem_append.mpr ⟨htrail, List.forall_mem_singleton.mpr hc⟩⟩
      · have hnopad : lut ws c ≠ .pad := fun e => hc (.inr e)
        have halpha : isAlpha ws c = true :=
          ((isAlpha_or_mem_ws_iff ws c).mpr ⟨hvalid, hnopad⟩).resolve_right fun h => hc (.inl ((lut_eq_ws ws c).mpr h))
        exact ⟨str ++ [c], [], (List.append_nil _).symm, List.forall_mem_append.mpr
          ⟨fun d hd => ⟨hstr.1 d hd, hpad halpha d hd⟩, List.forall_mem_singleton.mpr ⟨hvalid, hnopad⟩⟩, nofun⟩
  · rintro ⟨front, trail, rfl, hfront, htrail⟩
    exact (regular_append_ws_or_pad front trail htrail).mpr ((regular_without_pad ws front).mpr hfront).1

/-- The strings of R78 are the regular ones with an alphabet character: the first one ends the leading whitespace. -/
theorem accepted_iff (ws str : List Byte) :
    Accepted ws str ↔ Regular ws str ∧ ∃ c ∈ str, isAlpha ws c = true := by
  rw [regular_iff_split]
  constructor
  · rintro ⟨lead, first, body, trail, rfl, hlead, hfirst, hbody, htrail⟩
    refine ⟨⟨lead ++ first :: body, trail, by simp, ?_, htrail⟩, first, by simp, hfirst⟩
    exact List.forall_mem_append.mpr ⟨fun c hc => .inr (hlead c hc), List.forall_mem_cons.mpr ⟨.inl hfirst, hbody⟩⟩
  · rintro ⟨⟨front, trail, rfl, hfront, htrail⟩, c, hc, halpha⟩
    have hmem : c ∈ front := (List.mem_append.mp hc).resolve_right fun hc => by
      have hno := (alphaIdx_eq_none ws c).mp (alphaIdx_of_ws_or_pad ((lut_eq_ws_or_pad ws c).mpr (htrail c hc)))
      exact Bool.false_ne_true (hno.symm.trans halpha)
    obtain ⟨first, hfind⟩ := Option.isSome_iff_exists.mp (List.find?_isSome.mpr ⟨c, hmem, halpha⟩)
    obtain ⟨hfirst, lead, body, rfl, hlead⟩ := List.find?_eq_some_iff_append.mp hfind
    obtain ⟨hleadOk, hrest⟩ := List.forall_mem_append.mp hfront
    refine ⟨lead, first, body, trail, by simp, fun d hd => ?_, hfirst, (List.forall_mem_cons.mp hrest).2, htrail⟩
    exact (hleadOk d hd).resolve_left (by simpa using hlead d hd)

/-- A string has an index exactly if it has an alphabet character (R90). -/
theorem filterMap_alphaIdx_pos (ws str : List Byte) :
    0 < (str.filterMap (alphaIdx ws)).length ↔ ∃ c ∈ str, isAlpha ws c = true := by
  simp only [List.length_pos_iff_exists_mem, List.mem_filterMap, isAlpha, Option.isSome_iff_exists]
  exact ⟨fun ⟨idx, c, hc, h⟩ => ⟨c, hc, idx, h⟩, fun ⟨c, hc, idx, h⟩ => ⟨idx, c, hc, h⟩⟩

/-- A string and its END from the idle state publish the record of the closed unit, under any capacity and `WS_SET` (R91, R96). -/
theorem exists_record_of_string {s : State} (str : List Byte) (hidle : s.b32 = B32.idle) :
    ∃ b t, execAll (symbolsOf s.cfg.wsSet str ++ [.endOfString]) s = .next t ∧ t.b32Res = some b.close.record ∧
      B32.Verdict s.cfg.secretMax s.cfg.wsSet str b ∧ (b.err = 0 → b.Reads s.cfg.wsSet str) := by
  obtain ⟨b, hexec, haccept, -, hreads⟩ := execAll_symbolsOf s str hidle
  refine ⟨b, s.setB32 b.close, ?_, by simp [State.b32Res, B32.close_eq], verdict_of_execAll_symbolsOf hidle str b hexec,
    hreads⟩
  rw [execAll_append _ _ _ _ hexec, execAll, exec_endOfString_accept (s := s.setB32 b) haccept]
  rfl

/-- Settles O35: without a capacity the unit records no fault exactly for a regular string, and END adds the fault of a string
without an alphabet character. -/
theorem acceptedStringsAreTheGrammar : Obligations.AcceptedStringsAreTheGrammar := by
  intro s str hidle hmax
  obtain ⟨b, t, hexec, hres, hverdict, hreads⟩ := exists_record_of_string str hidle
  refine ⟨t, b.close.record, hexec, hres, ?_⟩
  rw [accepted_iff]
  cases hverdict with
  | tooLong _ hover =>
    obtain ⟨p, -, -, hover⟩ := hover
    rw [hmax] at hover
    exact absurd trivial hover
  | malformed herr hregular =>
    exact .inr ⟨fun h => hregular h.1, by rw [b.record_close_of_fault (by rw [herr]; decide), herr]⟩
  | clean hclean =>
    have hletters := (hreads hclean.err_zero).nonempty_iff.trans (filterMap_alphaIdx_pos s.cfg.wsSet str)
    cases hne : b.nonempty with
    | true =>
      rw [b.record_close_of_success hclean.err_zero hne]
      exact .inl ⟨⟨hclean.regular, hletters.mp hne⟩, rfl⟩
    | false =>
      rw [b.record_close_of_empty hclean.err_zero hne]
      exact .inr ⟨fun h => by simp [hletters.mpr h.2] at hne, rfl⟩

/-! # The beat of a step -/

/-- A waiting `sym_in` word is presented by a turn for it, or once no turn is left and B32D accepts it (R60, log entry 1). -/
theorem State.presented_symIn {s : State} {w : Sym9} {ws : List Sym9} {rest : List Turn}
    (hturns : s.host.turns = turnOn .symIn :: rest ∨ (s.host.turns = [] ∧ rest = []))
    (hword : s.host.symIn = w :: ws) (haccept : s.b32.phase = .accept) : s.presented = some (.symIn w) := by
  rcases hturns with h | ⟨h, -⟩
  · rw [s.presented_turn _ rest h]
    simp [HostEnd.wordOf, turnOn, hword]
  · rw [s.presented_no_turn h]
    simp [State.ripeWord, State.symInReady, hword, haccept]

/-- A waiting `tru_req` word is presented by a turn for it, or once no turn is left, no `sym_in` word can move and the TRU accepts
it (R60, log entry 1). -/
theorem State.presented_truReq {s : State} {q : TReq164} {qs : List TReq164} {rest : List Turn}
    (hturns : s.host.turns = turnOn .truReq :: rest ∨
      (s.host.turns = [] ∧ rest = [] ∧ (s.host.symIn = [] ∨ s.b32.phase = .done)))
    (hword : s.host.truReq = q :: qs) (haccept : s.tru.phase = .accept) : s.presented = some (.truReq q) := by
  rcases hturns with h | ⟨h, -, hsym⟩
  · rw [s.presented_turn _ rest h]
    simp [HostEnd.wordOf, turnOn, hword]
  · rw [s.presented_no_turn h]
    rcases hsym with hsym | hsym <;> simp [State.ripeWord, State.symInReady, State.truReqReady, hsym, hword, haccept]

section Handshakes

variable {s : State}

/-- B32D accepts a symbol in phase ACCEPT (R91). -/
theorem State.handshake_symIn (w : Sym9) (haccept : s.b32.phase = .accept) : s.handshake (.symIn w) = true := by
  simp [State.handshake, State.symInReady, haccept]

/-- B32D offers a record in phase DONE (R20). -/
theorem State.handshake_b32Ready (v : BitVec 1) (hdone : s.b32.phase = .done) : s.handshake (.b32Ready v) = true := by
  simp [State.handshake, State.b32ResValid, hdone]

/-- The TRU accepts a request in phase ACCEPT (R121). -/
theorem State.handshake_truReq (q : TReq164) (haccept : s.tru.phase = .accept) : s.handshake (.truReq q) = true := by
  simp [State.handshake, State.truReqReady, haccept]

/-- The TRU offers a record in phase DONE (R26). -/
theorem State.handshake_truReady (v : BitVec 1) (hdone : s.tru.phase = .done) : s.handshake (.truReady v) = true := by
  simp [State.handshake, State.truResValid, hdone]

/-- A turn with `rst = 1` presents RESET, whatever channel it names as well (R190). -/
theorem State.presented_rst {turn : Turn} {rest : List Turn} (hturns : s.host.turns = turn :: rest)
    (hrst : turn.rst = true) : s.presented = some (.rst 1) := by
  rw [s.presented_turn turn rest hturns]
  simp [HostEnd.wordOf, hrst]

end Handshakes

/-- Settles O10, channel by channel: the word is presented, its handshake holds, and what the beat leaves of the host is what the
statement writes out. -/
theorem stepRunsDecodedInstruction : Obligations.StepRunsDecodedInstruction := by
  refine ⟨fun s w ws rest hturns hword haccept => ⟨_, rfl, ?_⟩, fun s q qs rest hturns hword haccept => ⟨_, rfl, ?_⟩,
    fun s rest hturns hdone => ?_, fun s rest hturns hdone => ?_, fun s turn rest hturns hrst => ?_⟩
  · obtain rfl : ws = s.host.symIn.tail := by simp [hword]
    obtain rfl : rest = s.host.turns.tail := by rcases hturns with h | ⟨h, rfl⟩ <;> simp [h]
    exact step_of_beat s _ _ (State.presented_symIn hturns hword haccept) (State.handshake_symIn w haccept) rfl
  · obtain rfl : qs = s.host.truReq.tail := by simp [hword]
    obtain rfl : rest = s.host.turns.tail := by rcases hturns with h | ⟨h, rfl, -⟩ <;> simp [h]
    exact step_of_beat s _ _ (State.presented_truReq hturns hword haccept) (State.handshake_truReq q haccept) rfl
  · obtain rfl : rest = s.host.turns.tail := by simp [hturns]
    exact step_of_beat s _ _ (s.presented_turn _ _ hturns) (State.handshake_b32Ready 1 hdone) rfl
  · obtain rfl : rest = s.host.turns.tail := by simp [hturns]
    exact step_of_beat s _ _ (s.presented_turn _ _ hturns) (State.handshake_truReady 1 hdone) rfl
  · obtain rfl : rest = s.host.turns.tail := by simp [hturns]
    exact step_of_beat s _ _ (State.presented_rst hturns hrst) rfl rfl

end Sys2Proof.Machine

namespace Sys2Proof.Machine

/-! # The instructions of B32D one by one

## The words that select them -/

/-- Classes select instructions one to one (R62). -/
theorem instrOfClass_inj (k l : CharClass) : instrOfClass k = instrOfClass l ↔ k = l := by
  cases k <;> cases l <;> simp [instrOfClass]

/-- A character's word selects the instruction of exactly its own class (R62). -/
theorem decode_symWord_eq_instrOfClass (ws : List Byte) (c : Byte) (k : CharClass) :
    decode ws (.symIn (symWord c)) = .ok (instrOfClass k) ↔ lut ws c = k := by
  rw [decode_symWord, Except.ok.injEq, instrOfClass_inj]

/-- A one-bit signal is the instruction it stands for at 1, and none at 0 (R74). -/
theorem decodeEvent_eq_ok (v : BitVec 1) (i j : Instr) : decodeEvent v i = .ok j ↔ v = 1 ∧ j = i := by
  refine ⟨fun h => ⟨?_, decodeEvent_ok h⟩, fun ⟨hv, hj⟩ => by rw [decodeEvent, if_pos hv, hj]⟩
  by_contra hv
  rw [decodeEvent, if_neg hv] at h
  cases h

/-- Exactly `b32_res.ready = 1` selects B32.TAKE (R74). -/
theorem decode_eq_b32Take (ws : List Byte) (w : BeatWord) : decode ws w = .ok .b32Take ↔ w = .b32Ready 1 := by
  cases w with
  | b32Ready v => simp [decode, decodeEvent_eq_ok]
  | symIn x =>
    refine ⟨fun h => ?_, nofun⟩
    have hsym := isSymIn_decodeSym ws x
    rw [Except.ok.inj h] at hsym
    cases hsym
  | truReq q => exact ⟨nofun, nofun⟩
  | truReady v | rst v => simp [decode, decodeEvent_eq_ok]

/-! ## Symbols and END in phase ACCEPT -/

/-- Settles O25. -/
theorem symWsChangesNothing : Obligations.SymWsChangesNothing := by
  refine ⟨fun ws c => (decode_symWord_eq_instrOfClass ws c .ws).trans (lut_eq_ws ws c), fun s => ?_⟩
  rcases s.b32.phase.accept_or_done with haccept | hdone
  · exact congrArg _ (State.symBeat_accept id s haccept)
  · exact congrArg _ (State.symBeat_done id s hdone)

/-- A `=` is marked if no fault is recorded (R91, R94). -/
theorem B32.unlessFaulted_markPad (b : B32) :
    b.unlessFaulted B32.markPad = { b with padSeen := b.padSeen || b.err == 0 } := by
  rcases B32.unlessFaulted_cases B32.markPad b with ⟨herr, e⟩ | ⟨herr, e⟩ <;> rw [e]
  · rw [beq_false_of_ne herr, Bool.or_false]
  · rw [herr, beq_self_eq_true, Bool.or_true, B32.markPad, ← herr]

/-- A fault is recorded if none is (R91, R95). -/
theorem B32.unlessFaulted_raise (f : FaultName) (b : B32) :
    b.unlessFaulted (B32.raise f) = { b with err := if b.err = 0 then f.code else b.err } := by
  rcases B32.unlessFaulted_cases (B32.raise f) b with ⟨herr, e⟩ | ⟨herr, e⟩ <;> rw [e]
  · rw [if_neg herr]
  · rw [if_pos herr, B32.raise]

/-- Settles O26. -/
theorem symPadSetsPadSeen : Obligations.SymPadSetsPadSeen := by
  refine ⟨fun ws c => (decode_symWord_eq_instrOfClass ws c .pad).trans ?_, fun s haccept => ?_⟩
  · rw [lut_eq_pad, BitVec.toNat_eq (x := c)]
    rfl
  · refine (exec_instrOfClass_accept .pad haccept).trans ?_
    rw [B32.read, B32.unlessFaulted_markPad]
    rfl

/-- Settles O27. -/
theorem symInvalidRecordsFault : Obligations.SymInvalidRecordsFault := by
  refine ⟨fun ws c => decode_symWord_eq_instrOfClass ws c .invalid, fun s haccept => ?_⟩
  refine (exec_instrOfClass_accept .invalid haccept).trans ?_
  rw [B32.read, B32.unlessFaulted_raise]
  rfl

/-- Settles O28. -/
theorem endPublishesResult : Obligations.EndPublishesResult := by
  refine ⟨fun ws w => ?_, fun s haccept => ?_⟩
  · rw [decode, Except.ok.injEq, decodeSym_eq_endOfString, symEnd_iff]
  · rw [exec_endOfString_accept haccept, B32.close_eq]
    rfl

/-! ## B32.TAKE -/

/-- Settles O30. -/
theorem b32TakeHandsOverAndClears : Obligations.B32TakeHandsOverAndClears := by
  refine ⟨decode_eq_b32Take, fun s hdone => ⟨_, s.b32.record, exec_b32Take_done hdone, ?_, ?_⟩⟩
  · simp [State.b32Res, hdone]
  · exact ⟨rfl, rfl, rfl, rfl, rfl, rfl, rfl, rfl, rfl, rfl⟩

/-- Settles O31: neither unit offers a record in phase ACCEPT. -/
theorem takeWithoutValidIsRefused : Obligations.TakeWithoutValidIsRefused := by
  refine fun s => ⟨fun haccept => ?_, fun haccept => ?_⟩
  · simp [exec, execB32Take, State.b32Res, haccept]
  · simp [exec, execTruTake, State.truRes, haccept]

/-! ## The phases -/

/-- A `sym_in` instruction in phase DONE changes nothing (R99). -/
theorem exec_symIn_done {i : Instr} {s : State} (hsym : isSymIn i = true) (hdone : s.b32.phase = .done) :
    exec i s = .next s := by
  obtain ⟨b, hexec, -⟩ := exec_symIn i s hsym
  rcases exec_cases i s _ hexec with ⟨f, -, e, -⟩ | ⟨rfl, -⟩ | ⟨_, _, rfl, -⟩ | ⟨rfl, -⟩ | ⟨rfl, -⟩
  · rw [hexec, e, State.symBeat_done f s hdone]
  all_goals cases hsym

/-- END alone moves the phase, from ACCEPT to DONE (R100). -/
theorem exec_symIn_phase {i : Instr} {s t : State} (hsym : isSymIn i = true) (h : exec i s = .next t) :
    t.b32.phase = if i = .endOfString then .done else s.b32.phase := by
  rcases s.b32.phase.accept_or_done with haccept | hdone
  · obtain ⟨b, rfl, hbeat⟩ := beat_of_exec hsym h
    have hiff := hbeat.phase_done_iff haccept
    split
    · next hend => exact hiff.mpr hend
    · next hend => rw [haccept]; exact b.phase.accept_or_done.resolve_right (mt hiff.mp hend)
  · rw [exec_symIn_done hsym hdone] at h
    cases h
    rw [hdone, ite_self]

/-- A `sym_in` instruction leaves the TRU (R50). -/
theorem exec_symIn_tru {i : Instr} {s t : State} (hsym : isSymIn i = true) (h : exec i s = .next t) : t.tru = s.tru := by
  obtain ⟨b, rfl, -⟩ := beat_of_exec hsym h
  rfl

/-- Settles O14, instruction by instruction. -/
theorem phaseTransitionTables : Obligations.PhaseTransitionTables := by
  intro i s t h
  cases i with
  | symAlpha _ | symWs | symPad | symInvalid | endOfString =>
    exact ⟨exec_symIn_phase rfl h, congrArg Tru.phase (exec_symIn_tru rfl h), nofun, nofun⟩
  | b32Take =>
    rcases s.b32.phase.accept_or_done with hp | hp
    · rw [(takeWithoutValidIsRefused s).1 hp] at h
      cases h
    · rw [exec_b32Take_done hp] at h
      cases h
      exact ⟨rfl, rfl, fun _ => hp, nofun⟩
  | truReq digits digest =>
    rcases s.tru.phase.accept_or_done with hp | hp
    · rw [exec_truReq_accept digits digest hp] at h
      cases h
      exact ⟨rfl, Tru.request_phase digits digest, nofun, nofun⟩
    · rw [exec_truReq_done digits digest hp] at h
      cases h
      exact ⟨rfl, hp, nofun, nofun⟩
  | truTake =>
    rcases s.tru.phase.accept_or_done with hp | hp
    · rw [(takeWithoutValidIsRefused s).2 hp] at h
      cases h
    · rw [exec_truTake_done hp] at h
      cases h
      exact ⟨rfl, rfl, nofun, fun _ => hp⟩
  | reset => cases h; exact ⟨rfl, rfl, nofun, nofun⟩

/-- Settles O12: the handshake of `sym_in` fails in phase DONE, and by R100 no instruction but B32.TAKE and RESET leads to
ACCEPT. -/
theorem symbolWaitsWhileResultPending : Obligations.SymbolWaitsWhileResultPending := by
  intro s hdone
  have hready : s.symInReady = false := by simp [State.symInReady, hdone]
  refine ⟨hready, fun w ws rest hturns hword => ?_, fun i hsym => exec_symIn_done hsym hdone,
    fun i t h haccept => ?_, _, exec_b32Take_done hdone, rfl⟩
  · obtain rfl : rest = s.host.turns.tail := by simp [hturns]
    refine step_of_no_handshake s fun v hv => ?_
    rw [s.presented_turn _ _ hturns] at hv
    obtain rfl : .symIn w = v := by simpa [HostEnd.wordOf, turnOn, hword] using hv
    exact hready
  · obtain ⟨hphase, -⟩ := phaseTransitionTables i s t h
    cases i with
    | b32Take => exact .inl rfl
    | reset => exact .inr rfl
    | endOfString => exact absurd (hphase.symm.trans haccept) nofun
    | symAlpha _ | symWs | symPad | symInvalid | truReq _ _ | truTake =>
      exact absurd (hdone.symm.trans (hphase.symm.trans haccept)) nofun

/-! # The laws of `decode`

## Case, whitespace and padding -/

/-- `decode` sees a string through stage 1 alone (R90). -/
theorem decodeString_congr {ws str str' : List Byte} (h : normalizeString ws str = normalizeString ws str') :
    decodeString ws str = decodeString ws str' := by
  rw [decodeString, decodeString, h]

/-- Any `=` at the end of a string are dropped, whether `WS_SET` holds `=` or not (R90). -/
theorem normalizeString_append_padding {ws : List Byte} (hws : letterFree ws = true) (str : List Byte) (n : Nat) :
    normalizeString ws (str ++ List.replicate n padChar) = normalizeString ws str := by
  induction n with
  | zero => rw [List.replicate_zero, List.append_nil]
  | succ n ih =>
    rw [List.replicate_succ', ← List.append_assoc,
      normalizeString_concat_dropped hws _ ((lut_eq_ws_or_pad ws padChar).mpr (.inl rfl)), ih]

/-- A whitespace anywhere is dropped (R90). -/
theorem visible_append_cons_ws {ws : List Byte} (hws : letterFree ws = true) (p q : List Byte) {c : Byte} (hc : c ∈ ws) :
    visible ws (p ++ c :: q) = visible ws (p ++ q) := by
  simp [visible, (fold_mem_iff hws c).mpr hc]

/-- Settles O38: each change of the string is undone by stage 1 of `decode`. -/
theorem decodeIgnoresCaseSpacePadding : Obligations.DecodeIgnoresCaseSpacePadding := by
  refine fun ws hws => ⟨fun s s' hfold => decodeString_congr ?_, fun p q c hc => decodeString_congr ?_,
    fun s n => decodeString_congr (normalizeString_append_padding hws s n)⟩
  · rw [normalizeString, hfold, normalizeString]
  · rw [normalizeString_eq, visible_append_cons_ws hws p q hc, normalizeString_eq]

/-! ## Lengths and initial parts -/

/-- A string has as many indices as alphabet characters (R90). -/
theorem length_filterMap_alphaIdx (ws str : List Byte) :
    (str.filterMap (alphaIdx ws)).length = str.countP fun c => isAlpha ws c :=
  List.length_filterMap_eq_countP

/-- Settles O39. -/
theorem decodedLength : Obligations.DecodedLength := by
  intro ws s bytes hws hdecode
  obtain ⟨-, -, rfl⟩ := (decodeString_eq_ok hws).mp hdecode
  rw [sliceBytes_length, length_filterMap_alphaIdx]

/-- Byte `m` of a bit string is its bits `8 m` to `8 m + 7`, counted from the most significant end (R42). -/
theorem sliceBytes_getElem (ix : List (BitVec 5)) (m : Nat) (hm : m < (sliceBytes ix).length) :
    (sliceBytes ix)[m] = BitVec.ofNat 8 (bitString ix >>> (5 * ix.length - 8 * (m + 1))) := by
  rw [sliceBytes_length] at hm
  simp only [sliceBytes, List.getElem_map, List.getElem_range]
  congr 2
  omega

/-- One more symbol of a bit string keeps its bytes (R42). -/
theorem sliceBytes_prefix_concat (ix : List (BitVec 5)) (i : BitVec 5) : sliceBytes ix <+: sliceBytes (ix ++ [i]) := by
  have hi := i.isLt
  have hlength : (ix ++ [i]).length = ix.length + 1 := List.length_append
  refine List.prefix_iff_getElem.mpr ⟨?_, fun m hm => ?_⟩
  · rw [sliceBytes_length, sliceBytes_length]
    omega
  · have htop : bitString (ix ++ [i]) >>> 5 = bitString ix := by
      rw [bitString_append, Nat.shiftRight_eq_div_pow]
      omega
    rw [sliceBytes_getElem, sliceBytes_getElem, ← htop, ← Nat.shiftRight_add]
    rw [sliceBytes_length] at hm
    congr 2
    omega

/-- More symbols of a bit string keep its bytes (R42, R101 (e)). -/
theorem sliceBytes_prefix_append (ix jx : List (BitVec 5)) : sliceBytes ix <+: sliceBytes (ix ++ jx) := by
  induction jx using List.reverseRecOn with
  | nil => rw [List.append_nil]
  | append_singleton jx i ih => exact ih.trans (List.append_assoc ix jx [i] ▸ sliceBytes_prefix_concat _ i)

/-- Settles O40: the indices of a string are the first ones of its extension's. This holds with `=` in the strings as well, so
the premises on `=` are not used. -/
theorem decodeOfPrefixIsPrefix : Obligations.DecodeOfPrefixIsPrefix := by
  intro ws s x b1 b2 hws _ _ h1 h2
  obtain ⟨-, -, rfl⟩ := (decodeString_eq_ok hws).mp h1
  obtain ⟨-, -, rfl⟩ := (decodeString_eq_ok hws).mp h2
  rw [List.filterMap_append]
  exact sliceBytes_prefix_append _ _

/-! # A string on the unit, with an unbounded buffer -/

/-- The only fault of `decode` is `InvalidSecretFormat` (R90). -/
theorem decodeString_eq_error {ws str : List Byte} {f : FaultName} (h : decodeString ws str = .error f) :
    f = .invalidSecretFormat := by
  rw [decodeString] at h
  split at h
  · exact (Except.error.inj h).symm
  · split at h
    · exact (Except.error.inj h).symm
    · cases h

/-- The record promised for bytes (R98). -/
theorem promisedRecord_of_ok {ws str bytes : List Byte} (h : decodeString ws str = .ok bytes) :
    promisedRecord ws str = ⟨0, bytes.length, bytes, bytes.isEmpty⟩ := by
  rw [promisedRecord, h]

/-- The record promised for a fault (R98). -/
theorem promisedRecord_of_error {ws str : List Byte} {f : FaultName} (h : decodeString ws str = .error f) :
    promisedRecord ws str = ⟨f.code, 0, [], false⟩ := by
  rw [promisedRecord, h]

/-- The promised record has code 1 exactly where `decode` raises `InvalidSecretFormat` (R98). -/
theorem promisedRecord_err_eq_one (ws str : List Byte) :
    (promisedRecord ws str).err = 1 ↔ decodeString ws str = .error .invalidSecretFormat := by
  cases h : decodeString ws str with
  | ok bytes => simp [promisedRecord_of_ok h]
  | error f =>
    obtain rfl := decodeString_eq_error h
    simp [promisedRecord_of_error h, FaultName.code]

/-! # A whole string -/

/-- B32D after the characters of a string, each accepted in phase ACCEPT (R91). -/
def B32.readAll (secretMax : Option Nat) (ws str : List Byte) (b : B32) : B32 :=
  str.foldl (fun b c => b.unlessFaulted (B32.read secretMax (lut ws c))) b

/-- No character moves the phase (R100). -/
theorem B32.read_phase (secretMax : Option Nat) (k : CharClass) (b : B32) : (b.read secretMax k).phase = b.phase := by
  cases k with
  | alpha idx => exact (B32.push_frame secretMax idx b).1
  | ws | pad | invalid => rfl

theorem B32.readAll_phase (secretMax : Option Nat) (ws str : List Byte) (b : B32) :
    (b.readAll secretMax ws str).phase = b.phase := by
  induction str generalizing b with
  | nil => rfl
  | cons c str ih => exact (ih _).trans (B32.unlessFaulted_phase _ (B32.read_phase secretMax _) b)

theorem B32.close_phase (b : B32) : b.close.phase = .done := by rw [B32.close_eq]

/-- The record of a closed string is offered (R20, R96). -/
theorem b32Res_of_close (s : State) (b : B32) : (s.setB32 b.close).b32Res = some b.close.record := by
  simp [State.b32Res, B32.close_phase]

/-- The symbols of a string in phase ACCEPT. -/
theorem execAll_symbolsOf_accept {s : State} (str : List Byte) (haccept : s.b32.phase = .accept) :
    execAll (symbolsOf s.cfg.wsSet str) s = .next (s.setB32 (s.b32.readAll s.cfg.secretMax s.cfg.wsSet str)) := by
  induction str generalizing s with
  | nil => rfl
  | cons c str ih =>
    have hphase := (B32.unlessFaulted_phase _ (B32.read_phase s.cfg.secretMax (lut s.cfg.wsSet c)) s.b32).trans haccept
    rw [symbolsOf, List.map_cons, execAll, exec_instrOfClass_accept _ haccept]
    exact ih (s := s.setB32 _) hphase

/-- The symbols of a string and END in phase ACCEPT. -/
theorem execAll_string_accept {s : State} (str : List Byte) (haccept : s.b32.phase = .accept) :
    execAll (symbolsOf s.cfg.wsSet str ++ [.endOfString]) s =
      .next (s.setB32 (s.b32.readAll s.cfg.secretMax s.cfg.wsSet str).close) := by
  rw [execAll_append _ _ _ _ (execAll_symbolsOf_accept str haccept), execAll, exec_endOfString_accept]
  · rfl
  · exact (B32.readAll_phase ..).trans haccept

/-- With an unbounded buffer the record of a string is the promised one (R98): nothing overruns the capacity. -/
theorem record_eq_promisedRecord {s : State} (str : List Byte) (hidle : s.b32 = B32.idle)
    (hmax : s.cfg.secretMax = none) (hws : letterFree s.cfg.wsSet = true) :
    (s.b32.readAll s.cfg.secretMax s.cfg.wsSet str).close.record = promisedRecord s.cfg.wsSet str := by
  obtain ⟨t, hexec, -, hres⟩ := execAll_string str hidle hws
  have hfits : fits s.cfg.secretMax (sliceBytes (str.filterMap (alphaIdx s.cfg.wsSet))).length := by rw [hmax]; trivial
  rw [execAll_string_accept str (by rw [hidle]; rfl)] at hexec
  cases hexec
  exact Option.some.inj ((b32Res_of_close s _).symm.trans (hres (not_overflows_of_fits hfits)))

/-- Settles O34. -/
theorem streamAgreesWithDecode : Obligations.StreamAgreesWithDecode := by
  intro s str hidle hmax hws
  have hres := b32Res_of_close s (s.b32.readAll s.cfg.secretMax s.cfg.wsSet str)
  rw [record_eq_promisedRecord str hidle hmax hws] at hres
  refine ⟨_, execAll_string_accept str (by rw [hidle]; rfl), ?_, fun f => decodeString_eq_error, fun bytes h => ?_⟩
  · rw [hres, ← promisedRecord_err_eq_one]
    exact ⟨fun ⟨r, hr, herr⟩ => Option.some.inj hr ▸ herr, fun herr => ⟨_, rfl, herr⟩⟩
  · rw [hres, promisedRecord_of_ok h]

/-! ## On the channels -/

/-- A character's turn in phase ACCEPT (R60, R91). -/
theorem step_symWord {s : State} {c : Byte} {words : List Sym9} {turns : List Turn}
    (hturns : s.host.turns = turnOn .symIn :: turns) (hwords : s.host.symIn = symWord c :: words)
    (haccept : s.b32.phase = .accept) :
    step s = .next ((s.setB32 (s.b32.unlessFaulted (B32.read s.cfg.secretMax (lut s.cfg.wsSet c)))).setHost
      { s.host with turns := turns, symIn := words, symOpen := s.host.symOpen ++ [.char c] }) := by
  obtain ⟨i, hdecode, hstep⟩ := stepRunsDecodedInstruction.1 s _ words turns (.inl hturns) hwords haccept
  obtain rfl := Except.ok.inj ((decode_symWord s.cfg.wsSet c).symm.trans hdecode)
  rw [hstep, stringItem_symWord, exec_instrOfClass_accept _ (by exact haccept)]
  rfl

/-- The turn of END in phase ACCEPT (R60, R96). -/
theorem step_endWord {s : State} {words : List Sym9} {turns : List Turn}
    (hturns : s.host.turns = turnOn .symIn :: turns) (hwords : s.host.symIn = endWord :: words)
    (haccept : s.b32.phase = .accept) :
    step s = .next ((s.setB32 s.b32.close).setHost
      { s.host with turns := turns, symIn := words, symOpen := s.host.symOpen ++ [.close] }) := by
  obtain ⟨i, hdecode, hstep⟩ := stepRunsDecodedInstruction.1 s _ words turns (.inl hturns) hwords haccept
  obtain rfl : .endOfString = i := Except.ok.inj hdecode
  rw [hstep, stringItem_endWord, exec_endOfString_accept (by exact haccept)]
  rfl

/-- The turn of the TAKE in phase DONE (R97). -/
theorem step_b32Take {s : State} {turns : List Turn} (hturns : s.host.turns = turnOn .b32Res :: turns)
    (hdone : s.b32.phase = .done) :
    step s = .next ((s.setB32 B32.idle).setHost
      (HostEnd.receiveB32 { s.host.closeString with turns := turns } s.b32.record)) := by
  obtain ⟨-, -, htake, -⟩ := stepRunsDecodedInstruction
  rw [htake s turns hturns hdone, exec_b32Take_done (by exact hdone)]
  rfl

/-- The turns of a string's characters in phase ACCEPT. -/
theorem run_symWords {s : State} (str : List Byte) {words : List Sym9} {turns : List Turn} (k : Nat)
    (hturns : s.host.turns = List.replicate str.length (turnOn .symIn) ++ turns)
    (hwords : s.host.symIn = str.map symWord ++ words) (haccept : s.b32.phase = .accept) :
    Host.Core.run Sys2Proof.core (str.length + k) s = Host.Core.run Sys2Proof.core k
      ((s.setB32 (s.b32.readAll s.cfg.secretMax s.cfg.wsSet str)).setHost
        { s.host with turns := turns, symIn := words, symOpen := s.host.symOpen ++ str.map .char }) := by
  induction str generalizing s with
  | nil =>
    have hturns : s.host.turns = turns := hturns
    have hwords : s.host.symIn = words := hwords
    subst hturns hwords
    rw [List.map_nil, List.append_nil, List.length_nil, Nat.zero_add]
    rfl
  | cons c str ih =>
    have hphase := (B32.unlessFaulted_phase _ (B32.read_phase s.cfg.secretMax (lut s.cfg.wsSet c)) s.b32).trans haccept
    rw [List.length_cons, Nat.add_right_comm, run_succ _ _ _ (step_symWord hturns hwords haccept), ih rfl rfl hphase]
    simp only [State.setHost_host, List.append_assoc, List.singleton_append, List.map_cons]
    rfl

/-- Settles O37: `n` turns read the characters, one closes the string, and one takes its record. -/
theorem stringTransactionTakesNPlusTwoSteps : Obligations.StringTransactionTakesNPlusTwoSteps := by
  intro s str words turns hidle hopen hwords hturns
  have haccept : s.b32.phase = .accept := by rw [hidle]; rfl
  refine ⟨_, _, execAll_string_accept str haccept, b32Res_of_close s _, record_eq_promisedRecord str hidle, ?_, ?_⟩
  · rw [stringWords, List.append_assoc] at hwords
    rw [stringTurns, List.replicate_succ', List.append_assoc, List.append_assoc] at hturns
    rw [run_symWords str 2 hturns hwords haccept,
      run_succ _ _ _ (step_endWord rfl rfl ((B32.readAll_phase ..).trans haccept)),
      run_succ _ _ _ (step_b32Take rfl (B32.close_phase _)), ← hidle]
    simp only [State.setHost_host, hopen, List.nil_append]
    rfl
  · rintro htru rfl hreq howed hreqOpen hreqOwed
    exact ⟨hidle, htru, rfl, hreq, hopen, howed, hreqOpen, hreqOwed⟩

/-! # The session -/

/-- One beat alone. -/
theorem execAll_singleton {i : Instr} {s t : State} (h : exec i s = .next t) : execAll [i] s = .next t := by
  rw [execAll, h]
  rfl

/-- The host reads the promised record of its string, and B32D is idle again (R98, R153 steps 1 and 2). -/
theorem decodeOnBlock_eq {s : State} (str : List Byte) (hidle : s.b32 = B32.idle) (hmax : s.cfg.secretMax = none)
    (hws : letterFree s.cfg.wsSet = true) : decodeOnBlock s str =
    (hostSecret (promisedRecord s.cfg.wsSet str)).map fun secret =>
      (secret, s.setHost (s.host.receiveB32 (promisedRecord s.cfg.wsSet str))) := by
  have hrecord := record_eq_promisedRecord str hidle hmax hws
  have htake := exec_b32Take_done (s := s.setB32 (s.b32.readAll s.cfg.secretMax s.cfg.wsSet str).close) (B32.close_phase _)
  rw [decodeOnBlock, execAll_string_accept str (by rw [hidle]; rfl)]
  dsimp only
  rw [b32Res_of_close, execAll_singleton htake, State.setB32_b32, State.setB32_host, hrecord, ← hidle]
  dsimp only
  cases hostSecret (promisedRecord s.cfg.wsSet str) <;> rfl

/-- A digit count that is legal for the host is the count its request carries (R71, R153 step 5). -/
theorem ofInt_digits {digits : Int} (h : hostDigitsLegal digits = true) :
    digitsLegal (BitVec.ofInt 4 digits) = true ∧ (BitVec.ofInt 4 digits).toNat = digits.toNat := by
  have hrange : 1 ≤ digits ∧ digits ≤ 10 := by simpa [hostDigitsLegal] using h
  have hcount : (BitVec.ofInt 4 digits).toNat = digits.toNat := by
    rw [BitVec.toNat_ofInt]
    omega
  rw [digitsLegal_iff, hcount]
  omega

/-- The record of a request with a legal digit count (R26, R121). -/
theorem Tru.record_request (digits : BitVec 4) (digest : Digest) (h : digitsLegal digits = true) :
    (Tru.request digits digest).record = ⟨0, digits, trunc digest digits.toNat⟩ := by
  have htake := codeOf_take (trunc digest digits.toNat) (by rw [trunc_length]; exact ((digitsLegal_iff digits).mp h).2)
  rw [trunc_length] at htake
  rw [Tru.request_legal digits digest h, Tru.record, htake]

/-- The host reads the code of its request, and the TRU is idle again (R120, R153 steps 5 and 6). -/
theorem truncateOnBlock_eq {s : State} {digits : BitVec 4} (digest : Digest) (hidle : s.tru = Tru.idle)
    (hlegal : digitsLegal digits = true) : truncateOnBlock s digits digest =
      .ok (trunc digest digits.toNat, s.setHost (s.host.receiveTru ⟨0, digits, trunc digest digits.toNat⟩)) := by
  have hphase := Tru.request_phase digits digest
  have hres : (s.setTru (Tru.request digits digest)).truRes = some (Tru.request digits digest).record := by
    simp [State.truRes, hphase]
  have htake := exec_truTake_done (s := s.setTru (Tru.request digits digest)) hphase
  rw [truncateOnBlock, execAll_singleton (exec_truReq_accept digits digest (by rw [hidle]; rfl))]
  dsimp only
  rw [hres, execAll_singleton htake, State.setTru_tru, State.setTru_host, Tru.record_request digits digest hlegal, ← hidle]
  rfl

/-- From idle units the session and `generate(decode(s))` both fail, or both give the same code, and then the block is as it was
but for the records taken (R147, R153). -/
theorem hostSession_cases {s : State} (str : List Byte) (epoch step digits : Int) (hb32 : s.b32 = B32.idle)
    (htru : s.tru = Tru.idle) (hmax : s.cfg.secretMax = none) (hws : letterFree s.cfg.wsSet = true) :
    (∃ f f', hostSession s str epoch step digits = .error f ∧
      generateFromString s.cfg.wsSet str epoch step digits = .error f') ∨
    (∃ code h, hostSession s str epoch step digits = .ok (code, s.setHost h) ∧
      generateFromString s.cfg.wsSet str epoch step digits = .ok code) := by
  rw [hostSession, generateFromString, decodeOnBlock_eq str hb32 hmax hws]
  cases hdecode : decodeString s.cfg.wsSet str with
  | error f =>
    rw [promisedRecord_of_error hdecode, hostSecret, faultOfCode_code]
    exact .inl ⟨f, f, rfl, rfl⟩
  | ok secret =>
    rw [promisedRecord_of_ok hdecode]
    dsimp only
    cases hcounter : hotpCounter epoch step with
    | error f =>
      rw [generate, hcounter]
      cases secret <;> exact .inl ⟨_, f, rfl, rfl⟩
    | ok counter =>
      rw [generate, hcounter]
      cases secret with
      | nil => exact .inl ⟨_, _, rfl, rfl⟩
      | cons b r =>
        cases hdigits : hostDigitsLegal digits with
        | false => exact .inl ⟨.invalidDigits, .invalidDigits, rfl, rfl⟩
        | true =>
          obtain ⟨hlegal, hcount⟩ := ofInt_digits hdigits
          refine .inr ⟨_, _, truncateOnBlock_eq _ htru hlegal, ?_⟩
          rw [hcount]
          rfl

/-- Settles O59. -/
theorem sessionYieldsGeneratedCode : Obligations.SessionYieldsGeneratedCode := by
  intro s str epoch step digits hb32 htru hmax hws
  rcases hostSession_cases str epoch step digits hb32 htru hmax hws with
    ⟨f, f', hsession, hgenerate⟩ | ⟨code, h, hsession, hgenerate⟩ <;> rw [hsession, hgenerate]
  · exact ⟨fun _ => ⟨nofun, nofun⟩, nofun⟩
  · refine ⟨fun code' => ⟨fun e => ?_, fun ⟨t, e⟩ => ?_⟩, fun code' t e => ?_⟩ <;> cases e
    · exact ⟨_, rfl⟩
    · rfl
    · exact ⟨hb32, htru⟩

end Sys2Proof.Machine

namespace Sys2Proof.Machine

/-! # The truncation unit

## The window and the 31-bit value -/

/-- The 31-bit value by the bytes of the digest alone (R123 to R125). -/
theorem binValue_eq (d : Digest) :
    (binValue d).toNat =
      let o := (digestByte d 19).toNat % 16
      (digestByte d o).toNat % 128 * 2 ^ 24 + (digestByte d (o + 1)).toNat * 2 ^ 16 +
        (digestByte d (o + 2)).toNat * 2 ^ 8 + (digestByte d (o + 3)).toNat := by
  rw [binValue_toNat, truncOffset_eq]

/-- Bytes shifted to adjacent places below `a` do not overlap, so their or is their sum (R131 (b)). -/
theorem shiftLeft_or_bytes (a b c d : Nat) (hb : b < 256) (hc : c < 256) (hd : d < 256) :
    a <<< 24 ||| b <<< 16 ||| c <<< 8 ||| d = a * 2 ^ 24 + b * 2 ^ 16 + c * 2 ^ 8 + d := by
  have low : c <<< 8 ||| d = c * 2 ^ 8 + d := by
    rw [← Nat.shiftLeft_add_eq_or_of_lt (by omega), Nat.shiftLeft_eq]
  have mid : b <<< 16 ||| (c * 2 ^ 8 + d) = b * 2 ^ 16 + (c * 2 ^ 8 + d) := by
    rw [← Nat.shiftLeft_add_eq_or_of_lt (by omega), Nat.shiftLeft_eq]
  rw [Nat.or_assoc, Nat.or_assoc, low, mid, ← Nat.shiftLeft_add_eq_or_of_lt (by omega), Nat.shiftLeft_eq]
  omega

/-- Settles O43: the four fields of the value do not overlap. -/
theorem windowValueFormula : Obligations.WindowValueFormula := by
  intro d o
  have ho : o = (digestByte d 19).toNat % 16 := truncOffset_eq d
  have hmask : (digestByte d o &&& 0x7F).toNat = (digestByte d o).toNat % 128 := by
    rw [BitVec.toNat_and]
    exact Nat.and_two_pow_sub_one_eq_mod _ 7
  have hbin := (binValue d).isLt
  refine ⟨ho, by omega, by omega, ?_, by omega⟩
  rw [binValue_toNat, hmask, shiftLeft_or_bytes _ _ _ _ (BitVec.isLt _) (BitVec.isLt _) (BitVec.isLt _)]

/-- The code depends on the digest through the 31-bit value only (R126, R127). -/
theorem trunc_congr {d d' : Digest} (h : binValue d = binValue d') (digits : Nat) : trunc d digits = trunc d' digits := by
  rw [trunc, trunc, codeValue, codeValue, h]

/-- Settles O46: the 31-bit value is a number made of exactly the bits that agree. -/
theorem otherDigestBitsDoNotMatter : Obligations.OtherDigestBitsDoNotMatter := by
  intro d d' digits hoffset ⟨h0, h1, h2, h3⟩
  refine trunc_congr (BitVec.eq_of_toNat_eq ?_) digits
  rw [binValue_eq, binValue_eq, ← hoffset]
  dsimp only
  rw [h0, h1, h2, h3]

/-! ## The decimal code -/

/-- A shown character is a decimal digit of the 31-bit value itself: the modulo cuts off only higher ones (R126, R127). -/
theorem decimalChar_codeValue (d : Digest) {digits j : Nat} (hj : j < digits) :
    decimalChar (codeValue d digits) digits j = digitChar ((binValue d).toNat / 10 ^ (digits - 1 - j) % 10) := by
  have hsplit : 10 ^ digits = 10 ^ (digits - 1 - j) * 10 ^ (j + 1) := by
    rw [← Nat.pow_add]; congr 1; omega
  have hdvd : 10 ∣ 10 ^ (j + 1) := Dvd.intro_left _ (Nat.pow_succ ..).symm
  rw [decimalChar, codeValue, hsplit, Nat.mod_mul_right_div_self, Nat.mod_mod_of_dvd _ hdvd]

/-- A code, character by character (R127). -/
theorem trunc_getElem (d : Digest) (digits j : Nat) (hj : j < (trunc d digits).length) :
    (trunc d digits)[j] = digitChar ((binValue d).toNat / 10 ^ (digits - 1 - j) % 10) := by
  rw [trunc_length] at hj
  simp [trunc, decimalChar_codeValue d hj]

/-- Settles O47: a character's weight is its distance from the end of the code. -/
theorem shorterCodeIsTailOfLonger : Obligations.ShorterCodeIsTailOfLonger := by
  intro d d1 d2 hlt
  refine List.ext_getElem (by simp only [List.length_drop, trunc_length]; omega) fun j hj _ => ?_
  rw [trunc_length] at hj
  rw [List.getElem_drop, trunc_getElem, trunc_getElem, show d2 - 1 - (d2 - d1 + j) = d1 - 1 - j by omega]

/-- One more character, read as a number. -/
theorem decimalValue_concat (code : List Byte) (c : Byte) :
    decimalValue (code ++ [c]) = 10 * decimalValue code + (c.toNat - 0x30) := by
  simp [decimalValue]

/-- The first `n` characters of `v` written with `digits` characters read as the `n` digits of `v` from weight `10^(digits-1)` down
(R127). -/
theorem decimalValue_decimalChars (v digits n : Nat) (hn : n ≤ digits) :
    decimalValue ((List.range n).map (decimalChar v digits)) = v / 10 ^ (digits - n) % 10 ^ n := by
  induction n with
  | zero => simp [decimalValue, Nat.mod_one]
  | succ n ih =>
    have hup : v / 10 ^ (digits - n) = v / 10 ^ (digits - (n + 1)) / 10 := by
      rw [Nat.div_div_eq_div_mul, ← Nat.pow_succ]; congr 2; omega
    rw [List.range_succ, List.map_append, List.map_singleton, decimalValue_concat, ih (by omega), decimalChar_toNat,
      Nat.add_sub_cancel_left, hup, show digits - 1 - n = digits - (n + 1) by omega, Nat.pow_succ', Nat.mod_mul, Nat.add_comm]

/-- A code reads as the value modulo `10^digits` (R126, R127). -/
theorem decimalValue_trunc (d : Digest) (digits : Nat) :
    decimalValue (trunc d digits) = (binValue d).toNat % 10 ^ digits := by
  rw [trunc, decimalValue_decimalChars _ _ _ le_rfl, Nat.sub_self, Nat.pow_zero, Nat.div_one, codeValue, Nat.mod_mod]

/-- Settles O44. -/
theorem codeReadsAsRemainder : Obligations.CodeReadsAsRemainder := by
  refine fun d digits _ => ⟨trunc_length d digits, fun c hc => ?_, decimalValue_trunc d digits⟩
  obtain ⟨j, -, rfl⟩ := List.mem_map.mp hc
  exact decimalChar_range _ digits j

/-- Settles O45: the value is below `10^10`, and below `3 * 10^9`. -/
theorem tenDigitsShowTheWholeValue : Obligations.TenDigitsShowTheWholeValue := by
  intro d
  have hbin := (binValue d).isLt
  have hvalue : codeValue d 10 = (binValue d).toNat := Nat.mod_eq_of_lt (by omega)
  refine ⟨(decimalValue_trunc d 10).trans hvalue, _, _, by rw [trunc, List.range_succ_eq_map, List.map_cons], ?_⟩
  have hfirst := decimalChar_toNat (codeValue d 10) 10 0
  rw [hvalue] at hfirst ⊢
  simp only [List.mem_cons, List.not_mem_nil]
  omega

/-! ## TRU.REQ -/

/-- A count is refused below 1 and above 10 (R71, R122). -/
theorem digitsLegal_eq_false (digits : BitVec 4) :
    digitsLegal digits = false ↔ digits.toNat < 1 ∨ 10 < digits.toNat := by
  rw [← Bool.not_eq_true, digitsLegal_iff]
  omega

/-- A fault publishes no digit (R121). -/
theorem Tru.raised_code (f : FaultName) (j : Fin 10) : (Tru.raised f).code[j] = 0 := codeOf_getElem [] j

/-- Settles O41, by the branches of R121: the count is legal or not. -/
theorem truReqPublishesCode : Obligations.TruReqPublishesCode := by
  intro s digits digest haccept o bin cval
  refine ⟨_, exec_truReq_accept digits digest haccept, rfl, rfl, rfl, Tru.request_phase digits digest, ?_⟩
  have hcval : codeValue digest digits.toNat = cval := by rw [codeValue, binValue_eq]
  rw [State.setTru_tru]
  cases hl : digitsLegal digits with
  | false =>
    rw [if_pos ((digitsLegal_eq_false digits).mp hl), Tru.request_illegal digits digest hl]
    exact ⟨rfl, rfl, Tru.raised_code _⟩
  | true =>
    rw [if_neg (by rw [← digitsLegal_eq_false, hl]; nofun), Tru.request_legal digits digest hl]
    refine ⟨rfl, rfl, fun j => ?_⟩
    rw [codeOf_getElem, trunc_getD, hcval]
    split
    · exact decimalChar_toNat cval digits.toNat j.val
    · rfl

/-- Settles O42: the six values are the counts that are not legal. -/
theorem invalidDigitsExactlyOutsideRange : Obligations.InvalidDigitsExactlyOutsideRange := by
  intro s digits digest haccept
  refine ⟨_, exec_truReq_accept digits digest haccept, Tru.request_phase digits digest, ?_⟩
  have hrange : digits.toNat ∈ [0, 11, 12, 13, 14, 15] ↔ digitsLegal digits = false := by revert digits; decide
  rw [hrange]
  cases hl : digitsLegal digits with
  | false =>
    rw [Tru.request_illegal digits digest hl]
    exact ⟨iff_of_true rfl rfl, fun _ => ⟨rfl, Tru.raised_code _, rfl⟩, fun herr => absurd rfl herr⟩
  | true =>
    rw [Tru.request_legal digits digest hl]
    exact ⟨iff_of_false nofun nofun, nofun, fun _ => rfl⟩

/-! ## TRU.TAKE -/

/-- A `sym_in` word selects none but a `sym_in` instruction (R62). -/
theorem isSymIn_of_decode_symIn {ws : List Byte} {x : Sym9} {i : Instr} (h : decode ws (.symIn x) = .ok i) :
    isSymIn i = true :=
  Except.ok.inj h ▸ isSymIn_decodeSym ws x

/-- Exactly `tru_res.ready = 1` selects TRU.TAKE (R74). -/
theorem decode_eq_truTake (ws : List Byte) (w : BeatWord) : decode ws w = .ok .truTake ↔ w = .truReady 1 := by
  cases w with
  | truReady v => simp [decode, decodeEvent_eq_ok]
  | symIn x => exact ⟨fun h => absurd (isSymIn_of_decode_symIn h) nofun, nofun⟩
  | truReq q => exact ⟨nofun, nofun⟩
  | b32Ready v | rst v => simp [decode, decodeEvent_eq_ok]

/-- Settles O49. -/
theorem truTakeHandsOverAndClears : Obligations.TruTakeHandsOverAndClears := by
  refine ⟨decode_eq_truTake, fun s hdone => ⟨_, s.tru.record, exec_truTake_done hdone, ?_, ?_⟩⟩
  · simp [State.truRes, hdone]
  · exact ⟨rfl, rfl, rfl, codeOf_getElem [], rfl, rfl, rfl⟩

/-! ## The channels of the TRU -/

/-- Settles O13: the handshake of `tru_req` fails in phase DONE, and by R130 no instruction but TRU.TAKE and RESET leads to
ACCEPT. -/
theorem requestWaitsWhileResultPending : Obligations.RequestWaitsWhileResultPending := by
  intro s hdone
  have hready : s.truReqReady = false := by simp [State.truReqReady, hdone]
  refine ⟨hready, fun q qs rest hturns hword => ?_, fun digits digest => exec_truReq_done digits digest hdone,
    fun i t h haccept => ?_, _, exec_truTake_done hdone, rfl⟩
  · obtain rfl : rest = s.host.turns.tail := by simp [hturns]
    refine step_of_no_handshake s fun w hw => ?_
    rw [s.presented_turn _ _ hturns] at hw
    obtain rfl : .truReq q = w := by simpa [HostEnd.wordOf, turnOn, hword] using hw
    exact hready
  · obtain ⟨-, hphase, -⟩ := phaseTransitionTables i s t h
    rw [haccept] at hphase
    cases i with
    | truTake => exact .inl rfl
    | reset => exact .inr rfl
    | truReq _ _ => cases hphase
    | symAlpha _ | symWs | symPad | symInvalid | endOfString | b32Take =>
      exact absurd (hdone.symm.trans hphase.symm) nofun

/-- The turn of a request in phase ACCEPT (R60, R121). -/
theorem step_reqWord {s : State} {digits : BitVec 4} {digest : Digest} {words : List TReq164} {turns : List Turn}
    (hturns : s.host.turns = turnOn .truReq :: turns) (hwords : s.host.truReq = reqWord digits digest :: words)
    (haccept : s.tru.phase = .accept) :
    step s = .next ((s.setTru (Tru.request digits digest)).setHost
      { s.host with turns := turns, truReq := words, reqOpen := some (reqWord digits digest) }) := by
  obtain ⟨i, hdecode, hstep⟩ := stepRunsDecodedInstruction.2.1 s _ words turns (.inl hturns) hwords haccept
  obtain rfl := Except.ok.inj ((decode_reqWord s.cfg.wsSet digits digest).symm.trans hdecode)
  rw [hstep, exec_truReq_accept digits digest (by exact haccept)]
  rfl

/-- The turn of the TAKE in phase DONE (R128). -/
theorem step_truTake {s : State} {turns : List Turn} (hturns : s.host.turns = turnOn .truRes :: turns)
    (hdone : s.tru.phase = .done) :
    step s = .next ((s.setTru Tru.idle).setHost
      (HostEnd.receiveTru { s.host.closeRequest with turns := turns } s.tru.record)) := by
  obtain ⟨-, -, -, htake, -⟩ := stepRunsDecodedInstruction
  rw [htake s turns hturns hdone, exec_truTake_done (by exact hdone)]
  rfl

/-- Settles O51: one turn brings the request, and one takes its record. -/
theorem truTransactionTakesTwoSteps : Obligations.TruTransactionTakesTwoSteps := by
  intro s digits digest words turns hidle hmin hmax hwords hturns
  have hrecord := Tru.record_request digits digest ((digitsLegal_iff digits).mpr ⟨hmin, hmax⟩)
  rw [run_succ _ _ _ (step_reqWord hturns hwords (by rw [hidle]; rfl)),
    run_succ _ _ _ (step_truTake rfl (Tru.request_phase digits digest)), State.setHost_tru, State.setTru_tru, hrecord,
    ← hidle]
  rfl

end Sys2Proof.Machine

namespace Sys2Proof.Machine

/-! # The host's side

Counter and message, `generate`, `generateBatch`, and the empty secret (spec/42_host_composition.md).

## Counter and message -/

/-- Settles O52: the branches of R141 exclude each other, and a quotient in range is its own 64-bit value. -/
theorem counterRule : Obligations.CounterRule := by
  intro epoch step
  rcases hotpCounter_cases epoch step with ⟨hstep, h⟩ | ⟨hstep, hrange, h⟩ | ⟨hstep, hepoch, hquot, h⟩
  · exact ⟨fun _ => h, by omega, by omega, by omega⟩
  · exact ⟨by omega, fun _ _ => h, fun _ _ _ => h, by omega⟩
  · have hnonneg := Int.ediv_nonneg hepoch hstep.le
    refine ⟨by omega, by omega, by omega, fun _ _ _ => ⟨_, h, ?_⟩⟩
    rw [BitVec.toNat_ofInt]
    omega

/-- The low `n` bytes of a number, most significant first, read as the number modulo `256^n` (R42). -/
theorem bigEndian_lowBytes (n v : Nat) :
    bigEndian ((List.range n).map fun j => BitVec.ofNat 8 (v >>> (8 * (n - 1 - j)))) = v % 256 ^ n := by
  induction n generalizing v with
  | zero => rw [Nat.pow_zero, Nat.mod_one]; rfl
  | succ n ih =>
    have hinit (j : Nat) (hj : j ∈ List.range n) :
        BitVec.ofNat 8 (v >>> (8 * (n - j))) = BitVec.ofNat 8 (v >>> 8 >>> (8 * (n - 1 - j))) := by
      have hj' := List.mem_range.mp hj
      rw [← Nat.shiftRight_add]
      congr 2
      omega
    calc bigEndian ((List.range (n + 1)).map fun j => BitVec.ofNat 8 (v >>> (8 * (n + 1 - 1 - j))))
      _ = 256 * (v >>> 8 % 256 ^ n) + v % 256 := by
        rw [Nat.add_sub_cancel, List.range_succ, List.map_append, List.map_singleton, bigEndian_append,
          List.map_congr_left hinit, ih, Nat.sub_self, BitVec.toNat_ofNat]
        rfl
      _ = v % 256 ^ (n + 1) := by
        rw [Nat.pow_succ', Nat.mod_mul, Nat.add_comm, Nat.shiftRight_eq_div_pow]

/-- Settles O53. -/
theorem messageIsBigEndianCounter : Obligations.MessageIsBigEndianCounter := by
  refine fun c => ⟨by simp [hotpMessage], ?_⟩
  rw [hotpMessage, bigEndian_lowBytes 8]
  exact Nat.mod_eq_of_lt c.isLt

/-- The counter depends on the time only through the quotient: a time is negative exactly if its quotient is (R141, R148). -/
theorem hotpCounter_congr {t1 t2 step : Int} (h : t1 / step = t2 / step) : hotpCounter t1 step = hotpCounter t2 step := by
  by_cases hstep : step ≤ 0
  · rw [hotpCounter, hotpCounter, if_pos hstep, if_pos hstep]
  · have hpos : 0 < step := not_le.mp hstep
    have hneg : t1 < 0 ↔ t2 < 0 := by
      rw [← not_le, ← Int.ediv_nonneg_iff_of_pos hpos, h, Int.ediv_nonneg_iff_of_pos hpos, not_le]
    rw [hotpCounter, hotpCounter, h]
    simp only [hneg]

/-! ## `generate` -/

/-- A fault of the counter is the result (R141, R144). -/
theorem generate_of_counter_error {epoch step : Int} {f : FaultName} (h : hotpCounter epoch step = .error f)
    (secret : List Byte) (digits : Int) : generate secret epoch step digits = .error f := by
  rw [generate, h]

/-- Settles O55. -/
theorem generateDependsOnWindowOnly : Obligations.GenerateDependsOnWindowOnly := by
  intro secret t1 t2 step digits h
  rw [generate, generate, hotpCounter_congr h]

/-- The host's digit counts are those from 1 to 10 (R144). -/
theorem hostDigitsLegal_iff (digits : Int) : hostDigitsLegal digits = true ↔ 1 ≤ digits ∧ digits ≤ 10 := by
  simp [hostDigitsLegal]

/-- With a counter, `generate` asks for a key and for a legal digit count (R144, R145). -/
theorem generate_of_counter_ok {epoch step : Int} {counter : BitVec 64} (h : hotpCounter epoch step = .ok counter)
    (secret : List Byte) (digits : Int) :
    (secret = [] ∧ generate secret epoch step digits = .error .emptySecret) ∨
    (secret ≠ [] ∧ (digits < 1 ∨ 10 < digits) ∧ generate secret epoch step digits = .error .invalidDigits) ∨
    (secret ≠ [] ∧ 1 ≤ digits ∧ digits ≤ 10 ∧ generate secret epoch step digits =
      .ok (trunc (Config.hmacSha1 secret (hotpMessage counter)) digits.toNat)) := by
  rw [generate, h]
  cases secret with
  | nil => exact .inl ⟨rfl, rfl⟩
  | cons b rest =>
    cases hdigits : hostDigitsLegal digits with
    | false =>
      have hillegal := mt (hostDigitsLegal_iff digits).mpr (Bool.eq_false_iff.mp hdigits)
      exact .inr (.inl ⟨List.cons_ne_nil _ _, by omega, rfl⟩)
    | true =>
      obtain ⟨hmin, hmax⟩ := (hostDigitsLegal_iff digits).mp hdigits
      exact .inr (.inr ⟨List.cons_ne_nil _ _, hmin, hmax, rfl⟩)

/-- The conditions of the faults that apply (R141, R144, R145). -/
theorem mem_generateFaults (secret : List Byte) (epoch step digits : Int) (f : FaultName) :
    f ∈ generateFaults secret epoch step digits ↔
      (step ≤ 0 ∧ f = .invalidStep) ∨
      ((epoch < 0 ∨ 0 < step ∧ 2 ^ 64 ≤ epoch / step) ∧ f = .counterOverflow) ∨
      (secret = [] ∧ f = .emptySecret) ∨
      ((digits < 1 ∨ 10 < digits) ∧ f = .invalidDigits) := by
  simp only [generateFaults, List.mem_append, List.mem_ite_nil_right, List.mem_singleton, ge_iff_le, or_assoc]

/-- `generate` reports a fault that applies, or none applies and it gives a code (R146). -/
theorem generate_cases (secret : List Byte) (epoch step digits : Int) :
    (∃ f ∈ generateFaults secret epoch step digits, generate secret epoch step digits = .error f) ∨
    (generateFaults secret epoch step digits = [] ∧ ∃ code, generate secret epoch step digits = .ok code) := by
  simp only [mem_generateFaults]
  rcases hotpCounter_cases epoch step with ⟨hstep, h⟩ | ⟨hstep, hrange, h⟩ | ⟨hstep, hepoch, hquot, h⟩
  · exact .inl ⟨_, .inl ⟨hstep, rfl⟩, generate_of_counter_error h secret digits⟩
  · exact .inl ⟨_, .inr (.inl ⟨hrange.imp_right (⟨hstep, ·⟩), rfl⟩), generate_of_counter_error h secret digits⟩
  · rcases generate_of_counter_ok h secret digits with ⟨hempty, hg⟩ | ⟨-, hdigits, hg⟩ | ⟨hkey, hmin, hmax, hg⟩
    · exact .inl ⟨_, .inr (.inr (.inl ⟨hempty, rfl⟩)), hg⟩
    · exact .inl ⟨_, .inr (.inr (.inr ⟨hdigits, rfl⟩)), hg⟩
    · refine .inr ⟨?_, _, hg⟩
      rw [generateFaults, if_neg (by omega), if_neg (by omega), if_neg hkey, if_neg (by omega)]
      rfl

/-- Settles O54. -/
theorem generateFailsExactlyWhenAFaultApplies : Obligations.GenerateFailsExactlyWhenAFaultApplies := by
  intro secret epoch step digits
  rcases generate_cases secret epoch step digits with ⟨f, hf, hg⟩ | ⟨hnil, hcode⟩
  · exact ⟨fun hnil => absurd (hnil ▸ hf) List.not_mem_nil, fun _ => ⟨f, hf, hg⟩⟩
  · exact ⟨fun _ => hcode, fun hne => absurd hnil hne⟩

/-! ## `generateBatch` -/

/-- With a step, the batch runs from the start of the current window (R149). -/
theorem generateBatch_of_pos {step : Int} (hstep : 0 < step) (secret : List Byte) (now : Int) (count : Nat) (digits : Int) :
    generateBatch secret now count step digits = batchFrom secret step digits count (now / step * step) := by
  rw [generateBatch, if_neg (not_le.mpr hstep)]

/-- Windows are returned exactly if the first and all later ones give a code (R149, R152). -/
theorem batchFrom_succ_eq_ok (secret : List Byte) (step digits : Int) (n : Nat) (e : Int) (ws : List CodeWindow) :
    batchFrom secret step digits (n + 1) e = .ok ws ↔
      ∃ code rest, generate secret e step digits = .ok code ∧ batchFrom secret step digits n (e + step) = .ok rest ∧
        ws = ⟨e * 1000, code⟩ :: rest := by
  rw [batchFrom]
  cases generate secret e step digits with
  | error f => simp
  | ok code =>
    cases batchFrom secret step digits n (e + step) with
    | error f => simp
    | ok rest => simp [eq_comm]

/-- The fault is the first window's, or with a code there the later ones' (R149, R152). -/
theorem batchFrom_succ_eq_error (secret : List Byte) (step digits : Int) (n : Nat) (e : Int) (f : FaultName) :
    batchFrom secret step digits (n + 1) e = .error f ↔
      generate secret e step digits = .error f ∨
      (∃ code, generate secret e step digits = .ok code) ∧ batchFrom secret step digits n (e + step) = .error f := by
  rw [batchFrom]
  cases generate secret e step digits with
  | error f' => simp
  | ok code => cases batchFrom secret step digits n (e + step) <;> simp

/-- The time of window 0 from `e` on. -/
theorem window_zero (e step : Int) : e + (0 : Nat) * step = e := by rw [Nat.cast_zero, zero_mul, add_zero]

/-- The time of window `i + 1` from `e` on is that of window `i` from `e + step` on. -/
theorem window_succ (e step : Int) (i : Nat) : e + (i + 1 : Nat) * step = e + step + i * step := by
  push_cast
  ring

/-- Each window holds its start in milliseconds and its code (R149). -/
theorem batchFrom_ok {secret : List Byte} {step digits : Int} {n : Nat} {e : Int} {ws : List CodeWindow}
    (h : batchFrom secret step digits n e = .ok ws) :
    ws.length = n ∧ ∀ (i : Nat) (w : CodeWindow), ws[i]? = some w →
      w.startEpochSeconds = (e + i * step) * 1000 ∧ generate secret (e + i * step) step digits = .ok w.code := by
  induction n generalizing e ws with
  | zero =>
    cases h
    exact ⟨rfl, nofun⟩
  | succ n ih =>
    obtain ⟨code, rest, hcode, hrest, rfl⟩ := (batchFrom_succ_eq_ok ..).mp h
    obtain ⟨hlength, hwindow⟩ := ih hrest
    refine ⟨congrArg Nat.succ hlength, fun i w hw => ?_⟩
    cases i with
    | zero =>
      cases hw
      rw [window_zero]
      exact ⟨rfl, hcode⟩
    | succ i =>
      rw [window_succ]
      exact hwindow i w hw

/-- A batch fails as its lowest failing window does (R152). -/
theorem batchFrom_eq_error (secret : List Byte) (step digits : Int) (n : Nat) (e : Int) (f : FaultName) :
    batchFrom secret step digits n e = .error f ↔
      ∃ i : Nat, i < n ∧ generate secret (e + i * step) step digits = .error f ∧
        ∀ j : Nat, j < i → ∃ code, generate secret (e + j * step) step digits = .ok code := by
  induction n generalizing e with
  | zero => exact ⟨nofun, nofun⟩
  | succ n ih =>
    rw [batchFrom_succ_eq_error, ih, Nat.exists_lt_succ_left, window_zero]
    refine or_congr (and_iff_left nofun).symm ?_
    simp only [Nat.forall_lt_succ_left, window_zero, window_succ, ← exists_and_left, and_left_comm]

/-- `i` steps after `now` and `i` steps after the start of its window lie in one window (R150). -/
theorem ediv_window {step : Int} (hstep : 0 < step) (now : Int) (i : Nat) :
    (now / step * step + i * step) / step = (now + i * step) / step := by
  rw [Int.add_mul_ediv_right _ _ hstep.ne', Int.add_mul_ediv_right _ _ hstep.ne', Int.mul_ediv_cancel _ hstep.ne']

/-- Settles O56. -/
theorem batchIsContiguousAndAnchored : Obligations.BatchIsContiguousAndAnchored := by
  refine fun secret now count step digits => ⟨fun ws h => ?_, fun now' hwindow => ?_⟩
  · by_cases hstep : step ≤ 0
    · rw [generateBatch, if_pos hstep] at h
      cases h
    · have hpos : 0 < step := not_le.mp hstep
      rw [generateBatch_of_pos hpos] at h
      obtain ⟨hlength, hws⟩ := batchFrom_ok h
      refine ⟨hlength, fun i w hw => ?_⟩
      obtain ⟨hstart, hcode⟩ := hws i w hw
      exact ⟨hstart, generateDependsOnWindowOnly secret _ _ step digits (ediv_window hpos now i) ▸ hcode⟩
  · rw [generateBatch, generateBatch, hwindow]

/-- Settles O57: a negative `now` makes the start of its window negative, and so window 0 fails. -/
theorem batchIsAllOrNothing : Obligations.BatchIsAllOrNothing := by
  refine fun secret now count step digits => ⟨fun hstep => if_pos hstep,
    fun hstep => generateBatch_of_pos hstep secret now 0 digits, fun hstep hnow hcount => ?_, fun hstep f => ?_⟩
  · have hstart : now / step * step < 0 :=
      Int.mul_neg_of_neg_of_pos (Int.ediv_neg_of_neg_of_pos hnow hstep) hstep
    obtain ⟨-, hnegative, -⟩ := counterRule (now / step * step) step
    rw [generateBatch_of_pos hstep, batchFrom_eq_error]
    refine ⟨0, hcount, ?_, nofun⟩
    rw [window_zero, generate_of_counter_error (hnegative hstep hstart)]
  · rw [generateBatch_of_pos hstep, batchFrom_eq_error]

/-! ## The empty secret -/

/-- Settles O58: the string has `k ≥ 1` alphabet characters and `5 * k / 8` bytes (R78, R101 (d)). -/
theorem emptySecretIsOneSymbol : Obligations.EmptySecretIsOneSymbol := by
  intro ws s bytes hws hdecode
  have hlength := decodedLength ws s bytes hws hdecode
  obtain ⟨-, hsome, -⟩ := (decodeString_eq_ok hws).mp hdecode
  have hpos := List.length_pos_of_ne_nil hsome
  rw [length_filterMap_alphaIdx] at hpos
  rw [← List.length_eq_zero_iff, hlength]
  omega

end Sys2Proof.Machine

namespace Sys2Proof.Machine

/-! # Reset, completion and fairness

## RESET -/

/-- Exactly `rst = 1` selects RESET (R74, R190). -/
theorem decode_eq_reset (ws : List Byte) (w : BeatWord) : decode ws w = .ok .reset ↔ w = .rst 1 := by
  cases w with
  | rst v => simp [decode, decodeEvent_eq_ok]
  | symIn x => exact ⟨fun h => absurd (isSymIn_of_decode_symIn h) nofun, nofun⟩
  | truReq q => exact ⟨nofun, nofun⟩
  | b32Ready v | truReady v => simp [decode, decodeEvent_eq_ok]

/-- Settles O9: the step is RESET (R91), run in a state with the words and the records of `s`. -/
theorem resetHasPriority : Obligations.ResetHasPriority := by
  refine ⟨decode_eq_reset, fun s turn rest hturns hrst => ?_⟩
  obtain ⟨-, -, -, -, hreset⟩ := stepRunsDecodedInstruction
  exact ⟨_, hreset s turn rest hturns hrst, rfl, rfl, rfl, rfl, rfl, rfl, rfl, rfl⟩

/-! ## Every step completes -/

/-- The instruction of a beat completes: the handshake rules out a TAKE without a record (R100, R130). -/
theorem exec_nextBeat_completes {s u : State} {i : Instr} (h : s.nextBeat = some (i, u)) : ∃ t, exec i u = .next t := by
  obtain ⟨w, -, hshake, hdecode, rfl⟩ := s.nextBeat_some i u h
  cases w with
  | symIn x =>
    obtain ⟨b, hb, -⟩ := exec_symIn i (s.setHost (s.host.accepted (.symIn x))) (isSymIn_of_decode_symIn hdecode)
    exact ⟨_, hb⟩
  | b32Ready v =>
    have hdone : s.b32.phase = .done := by simpa [State.handshake, State.b32ResValid] using hshake
    cases decodeEvent_ok hdecode
    exact ⟨_, exec_b32Take_done hdone⟩
  | truReq q =>
    have haccept : s.tru.phase = .accept := by simpa [State.handshake, State.truReqReady] using hshake
    cases hdecode
    exact ⟨_, exec_truReq_accept _ _ haccept⟩
  | truReady v =>
    have hdone : s.tru.phase = .done := by simpa [State.handshake, State.truResValid] using hshake
    cases decodeEvent_ok hdecode
    exact ⟨_, exec_truTake_done hdone⟩
  | rst v =>
    cases decodeEvent_ok hdecode
    exact ⟨_, rfl⟩

/-- Every step answers a next state (R204 a). -/
theorem step_completes (s : State) : ∃ t, step s = .next t := by
  rcases step_eq s with ⟨-, hstep⟩ | ⟨i, u, hbeat, hstep⟩ <;> rw [hstep]
  · exact ⟨_, rfl⟩
  · exact exec_nextBeat_completes hbeat

/-- With no turn left there is none to spend. -/
theorem State.idleTurn_of_no_turn {s : State} (hturns : s.host.turns = []) : s.idleTurn = s := by
  have hspent : s.host.spendTurn = s.host := by rw [HostEnd.spendTurn, hturns, List.tail_nil, ← hturns]
  rw [State.idleTurn, hspent]
  rfl

/-- Settles O11: the instruction of a beat completes, and with no turn left and no word that its unit accepts there is no beat
and nothing to spend. -/
theorem everyStepCompletes : Obligations.EveryStepCompletes := by
  refine ⟨step_completes, fun s hturns hsym hreq => ?_⟩
  have hquiet : s.presented = none := by
    rw [s.presented_no_turn hturns]
    rcases s.ripeWord_cases with ⟨w, ws, hword, haccept, -⟩ | ⟨-, q, qs, hword, haccept, -⟩ | ⟨-, -, hnone⟩
    · simp [hword, haccept] at hsym
    · simp [hword, haccept] at hreq
    · exact hnone
  rw [step_of_no_handshake s (by simp [hquiet]), State.idleTurn_of_no_turn hturns]

/-! ## What a step takes from the channels -/

/-- A word of `sym_in` or `tru_req` is the first that waits on its channel; the host needs nothing for the other three. -/
def HostEnd.Waits (h : HostEnd) : BeatWord → Prop
  | .symIn x => ∃ xs, h.symIn = x :: xs
  | .truReq q => ∃ qs, h.truReq = q :: qs
  | .b32Ready _ | .truReady _ | .rst _ => True

/-- What moves in a turn waits on its channel. -/
theorem HostEnd.wordOf_waits {h : HostEnd} {turn : Turn} {w : BeatWord} (hw : h.wordOf turn = some w) : h.Waits w := by
  obtain ⟨rst, chan⟩ := turn
  cases rst with
  | true => cases hw; trivial
  | false =>
    cases chan with
    | none => cases hw
    | some c =>
      cases c with
      | symIn | truReq =>
        obtain ⟨x, hx, rfl⟩ := Option.map_eq_some_iff.mp hw
        exact List.head?_eq_some_iff.mp hx
      | b32Res | truRes => cases hw; trivial

/-- A presented word waits on its channel, whether a turn names it or it is ripe. -/
theorem State.presented_waits {s : State} {w : BeatWord} (hw : s.presented = some w) : s.host.Waits w := by
  cases hturns : s.host.turns with
  | nil =>
    rw [s.presented_no_turn hturns] at hw
    rcases s.ripeWord_cases with ⟨x, xs, hword, -, e⟩ | ⟨-, q, qs, hword, -, e⟩ | ⟨-, -, e⟩ <;> rw [e] at hw <;> cases hw
    · exact ⟨xs, hword⟩
    · exact ⟨qs, hword⟩
  | cons turn rest =>
    rw [s.presented_turn turn rest hturns] at hw
    exact HostEnd.wordOf_waits hw

/-- A step spends a turn, and takes a word from a channel only if it is the one presented: all others still wait (R200). -/
theorem step_channels {s t : State} (h : step s = .next t) :
    t.host.turns = s.host.turns.tail ∧
    (t.host.symIn = s.host.symIn ∨
      ∃ x, s.presented = some (.symIn x) ∧ s.host.symIn = x :: t.host.symIn) ∧
    (t.host.truReq = s.host.truReq ∨
      ∃ q, s.presented = some (.truReq q) ∧ s.host.truReq = q :: t.host.truReq) := by
  rcases step_eq s with ⟨-, hstep⟩ | ⟨i, u, hbeat, hstep⟩ <;> rw [hstep] at h
  · cases h
    exact ⟨rfl, .inl rfl, .inl rfl⟩
  · obtain ⟨w, hpresented, -, -, rfl⟩ := s.nextBeat_some i u hbeat
    obtain ⟨hsym, hreq, hturns⟩ := exec_host_words i _ t h
    rw [hsym, hreq, hturns]
    refine ⟨s.host.accepted_turns w, ?_⟩
    cases w with
    | symIn x =>
      obtain ⟨xs, hword⟩ := State.presented_waits hpresented
      exact ⟨.inr ⟨x, hpresented, by simp [HostEnd.accepted, hword]⟩, .inl rfl⟩
    | truReq q =>
      obtain ⟨qs, hword⟩ := State.presented_waits hpresented
      exact ⟨.inl rfl, .inr ⟨q, hpresented, by simp [HostEnd.accepted, hword]⟩⟩
    | b32Ready v | truReady v | rst v => exact ⟨.inl rfl, .inl rfl⟩

/-- A presented word whose handshake holds is the beat of the step, and the words that wait after the step are those that
its acceptance leaves (R60, R91). -/
theorem step_accepts {s t : State} {w : BeatWord} {i : Instr} (h : step s = .next t) (hpresented : s.presented = some w)
    (hshake : s.handshake w = true) (hdecode : decode s.cfg.wsSet w = .ok i) :
    s.nextBeat = some (i, s.setHost (s.host.accepted w)) ∧
      t.host.symIn = (s.host.accepted w).symIn ∧ t.host.truReq = (s.host.accepted w).truReq := by
  rw [step_of_beat s w i hpresented hshake hdecode] at h
  obtain ⟨hsym, hreq, -⟩ := exec_host_words i _ t h
  exact ⟨by simp [State.nextBeat, hpresented, hshake, hdecode], hsym, hreq⟩

/-! ## Weak fairness -/

/-- A waiting `sym_in` word is held by a pending result, or accepted in this step, or waits on while a turn is spent (R200). -/
theorem step_waiting_symIn {s t : State} (h : step s = .next t) {w : Sym9} {ws : List Sym9} (hword : s.host.symIn = w :: ws) :
    (s.b32.phase = .done ∨
      ∃ i u, decode s.cfg.wsSet (.symIn w) = .ok i ∧ s.nextBeat = some (i, u) ∧
        s.host.symIn = w :: ws ∧ t.host.symIn = ws) ∨
    (t.host.symIn = w :: ws ∧ t.host.turns.length < s.host.turns.length) := by
  rcases s.b32.phase.accept_or_done with haccept | hdone
  · by_cases hpresented : s.presented = some (.symIn w)
    · obtain ⟨hbeat, hleft, -⟩ := step_accepts h hpresented (State.handshake_symIn w haccept) rfl
      exact .inl (.inr ⟨_, _, rfl, hbeat, hword, hleft.trans (congrArg List.tail hword)⟩)
    · obtain ⟨hturns, hsym, -⟩ := step_channels h
      refine .inr ⟨?_, ?_⟩
      · rcases hsym with hsame | ⟨x, hx, hfirst⟩
        · exact hsame.trans hword
        · cases hword.symm.trans hfirst
          exact absurd hx hpresented
      · cases hleft : s.host.turns with
        | nil => exact absurd (State.presented_symIn (.inr ⟨hleft, rfl⟩) hword haccept) hpresented
        | cons turn rest => simp [hturns, hleft]
  · exact .inl (.inl hdone)

/-- With no turn left, a waiting `tru_req` word that the TRU accepts is presented, or a `sym_in` word is accepted before it
(log entry 1). -/
theorem step_no_turn_symIn_lt {s t : State} (h : step s = .next t) (hturns : s.host.turns = []) {q : TReq164} {qs : List TReq164}
    (hword : s.host.truReq = q :: qs) (haccept : s.tru.phase = .accept) (hpresented : s.presented ≠ some (.truReq q)) :
    t.host.symIn.length < s.host.symIn.length := by
  by_cases hsym : s.host.symIn = [] ∨ s.b32.phase = .done
  · exact absurd (State.presented_truReq (.inr ⟨hturns, rfl, hsym⟩) hword haccept) hpresented
  · obtain ⟨hne, hphase⟩ := not_or.mp hsym
    obtain ⟨w, ws, hfirst⟩ := List.exists_cons_of_ne_nil hne
    rcases step_waiting_symIn h hfirst with (hdone | ⟨_, _, -, -, -, hleft⟩) | ⟨-, hspent⟩
    · exact absurd hdone hphase
    · simp [hleft, hfirst]
    · simp [hturns] at hspent

/-- A waiting `tru_req` word is held by a pending result, or accepted in this step, or waits on while a turn is spent or a
`sym_in` word is accepted (R200). -/
theorem step_waiting_truReq {s t : State} (h : step s = .next t) {q : TReq164} {qs : List TReq164}
    (hword : s.host.truReq = q :: qs) :
    (s.tru.phase = .done ∨
      ∃ i u, decode s.cfg.wsSet (.truReq q) = .ok i ∧ s.nextBeat = some (i, u) ∧
        s.host.truReq = q :: qs ∧ t.host.truReq = qs) ∨
    (t.host.truReq = q :: qs ∧
      t.host.turns.length + t.host.symIn.length < s.host.turns.length + s.host.symIn.length) := by
  rcases s.tru.phase.accept_or_done with haccept | hdone
  · by_cases hpresented : s.presented = some (.truReq q)
    · obtain ⟨hbeat, -, hleft⟩ := step_accepts h hpresented (State.handshake_truReq q haccept) rfl
      exact .inl (.inr ⟨_, _, rfl, hbeat, hword, hleft.trans (congrArg List.tail hword)⟩)
    · obtain ⟨hturns, hsym, hreq⟩ := step_channels h
      refine .inr ⟨?_, ?_⟩
      · rcases hreq with hsame | ⟨x, hx, hfirst⟩
        · exact hsame.trans hword
        · cases hword.symm.trans hfirst
          exact absurd hx hpresented
      · cases hleft : s.host.turns with
        | nil => simpa [hturns, hleft] using step_no_turn_symIn_lt h hleft hword haccept hpresented
        | cons turn rest =>
          have hle : t.host.symIn.length ≤ s.host.symIn.length := by
            rcases hsym with e | ⟨_, -, e⟩ <;> simp [e]
          rw [hturns, hleft, List.tail_cons, List.length_cons]
          omega
  · exact .inl (.inl hdone)

/-- What holds on until `Q` does, while `μ` falls, has `Q` within `μ` steps. -/
theorem reached_within {P Q : Nat → Prop} (μ : Nat → Nat) (h : ∀ n, P n → Q n ∨ (P (n + 1) ∧ μ (n + 1) < μ n)) (n : Nat)
    (hn : P n) : ∃ m, n ≤ m ∧ m ≤ n + μ n ∧ Q m := by
  induction hμ : μ n using Nat.strong_induction_on generalizing n with
  | _ k ih =>
    subst hμ
    rcases h n hn with hq | ⟨hnext, hlt⟩
    · exact ⟨n, le_rfl, Nat.le_add_right n _, hq⟩
    · obtain ⟨m, hlow, hhigh, hq⟩ := ih _ hlt (n + 1) hnext rfl
      exact ⟨m, by omega, by omega, hq⟩

/-- Settles O60: while the word is neither held nor accepted, each step spends a turn or accepts a `sym_in` word before it. -/
theorem waitingWordIsAccepted : Obligations.WaitingWordIsAccepted := by
  intro run hrun n
  refine ⟨fun w ws hword => ?_, fun q qs hword => ?_⟩
  · exact reached_within (P := fun k => (run k).host.symIn = w :: ws) (fun k => (run k).host.turns.length)
      (fun k hk => step_waiting_symIn (hrun k) hk) n hword
  · rw [Nat.add_assoc]
    exact reached_within (P := fun k => (run k).host.truReq = q :: qs)
      (fun k => (run k).host.turns.length + (run k).host.symIn.length)
      (fun k hk => step_waiting_truReq (hrun k) hk) n hword

end Sys2Proof.Machine
